-- ==== Sys2Proof/Word.lean ====
section
/-! DEFINITION. The word types of the block (spec/30_encoding.md R90, spec/20_memory.md R66) and the names of the
seven time fields (spec/00_scope.md R11). -/

namespace Sys2Proof

/-- A byte: the unit of all three address spaces (R66) and of every field operand (R90). -/
abbrev Byte := BitVec 8

/-- A command word `CW`, 72 bits, `OP` in bits 71:64 and payload byte `Pk` in bits 8k+7:8k (R90). -/
abbrev CommandWord := BitVec 72

/-- `LinearAddress`: "an unsigned 16-bit offset into the paged memory device's address space" (R13, R190). -/
abbrev LinearAddress := BitVec 16

/-- The seven time fields, in the order k = 0 to 6 of R11. -/
inductive TimeField where
  | sec
  | min
  | hour
  | wday
  | dom
  | month
  | year
  deriving DecidableEq, Repr

/-- One byte for each time field: the values `f[0]` to `f[6]` of a Format F payload (R94), or the register offsets
`OFFSET[0]` to `OFFSET[6]` (R36). -/
structure FieldBytes where
  sec : Byte
  min : Byte
  hour : Byte
  wday : Byte
  dom : Byte
  month : Byte
  year : Byte
  deriving DecidableEq, Repr

/-- The byte of field k. -/
def FieldBytes.get (f : FieldBytes) : TimeField → Byte
  | .sec => f.sec
  | .min => f.min
  | .hour => f.hour
  | .wday => f.wday
  | .dom => f.dom
  | .month => f.month
  | .year => f.year

/-- `f` with the byte of field k replaced. -/
def FieldBytes.set (f : FieldBytes) (v : Byte) : TimeField → FieldBytes
  | .sec => { f with sec := v }
  | .min => { f with min := v }
  | .hour => { f with hour := v }
  | .wday => { f with wday := v }
  | .dom => { f with dom := v }
  | .month => { f with month := v }
  | .year => { f with year := v }

end Sys2Proof
end

