-- ==== Sys2Proof/Syntax.lean ====
section
/-! DEFINITION. The ten operations of the block with their operands (spec/00_scope.md R6, spec/30_encoding.md R95, R96):
one constructor for each row of spec/opcode_table.json. -/

namespace Sys2Proof

/-- A command, decoded. `wrall` carries the extra byte `x` whole (its bit k is present[k], its bit 7 is reserved, R94);
`wrcomp` carries the ignored weekday byte `P3` inside `f` (R95). -/
inductive Instr where
  /-- BCDDEC b (R124). -/
  | bcddec (b : Byte)
  /-- BCDENC v (R125). -/
  | bcdenc (v : Byte)
  /-- RDALL century (R145). -/
  | rdall (century : Byte)
  /-- WRALL with the present mask x and the field values f (R149). -/
  | wrall (x : Byte) (f : FieldBytes)
  /-- WRCOMP with the century base and the composite's field values (R152). -/
  | wrcomp (century : Byte) (f : FieldBytes)
  /-- WRNOW (R155). -/
  | wrnow
  /-- RDTEMP (R157). -/
  | rdtemp
  /-- SETADDR addr (R192). -/
  | setaddr (addr : LinearAddress)
  /-- MRDB addr (R194). -/
  | mrdb (addr : LinearAddress)
  /-- MWRB addr, val (R195). -/
  | mwrb (addr : LinearAddress) (val : Byte)
  deriving DecidableEq, Repr

end Sys2Proof
end

