-- ==== Sys2Proof/WellFormed.lean ====
section
/-! DEFINITION. Which terms of `Instr` are commands: the one check the operand types leave open. -/

namespace Sys2Proof

/-- "`x[7]` is reserved and must be zero" for WRALL (spec/30_encoding.md R94); every other operand is legal at every
value its type holds (R95, R99). -/
def Instr.wellFormed : Instr → Bool
  | .wrall x _ => !x.getLsbD 7
  | .bcddec _ => true
  | .bcdenc _ => true
  | .rdall _ => true
  | .wrcomp _ _ => true
  | .wrnow => true
  | .rdtemp => true
  | .setaddr _ => true
  | .mrdb _ => true
  | .mwrb _ _ => true

end Sys2Proof
end

