-- ==== Sys2Proof/Decode.lean ====
section
/-! DEFINITION. The decoder, total on every 72-bit command word (spec/30_encoding.md R90 to R102), and the encoder
written from the same format tables. -/

namespace Sys2Proof

/-- Why a command word is illegal: a reserved `OP` (R97), or a one in a bit its format calls reserved (R98). -/
inductive DecodeError where
  | reservedOpcode (op : Byte)
  | reservedBits (op : Byte)
  deriving DecidableEq, Repr

/-- What decoding a command word gives: one of the ten operations, or illegal by name (R99). -/
inductive Decoded where
  | command (i : Instr)
  | illegal (e : DecodeError)
  deriving DecidableEq, Repr

/-- `OP` = CW[71:64] (R90). -/
def opcodeByte (w : CommandWord) : Byte := w.extractLsb' 64 8

/-- Payload byte `Pk` = CW[8k+7:8k] (R90). -/
def payloadByte (w : CommandWord) (k : Nat) : Byte := w.extractLsb' (8 * k) 8

/-- The seven field bytes of a Format F payload, `P0` seconds to `P6` year (R94). -/
def FieldBytes.ofPayload (p : BitVec 64) : FieldBytes :=
  { sec := p.extractLsb' 0 8
    min := p.extractLsb' 8 8
    hour := p.extractLsb' 16 8
    wday := p.extractLsb' 24 8
    dom := p.extractLsb' 32 8
    month := p.extractLsb' 40 8
    year := p.extractLsb' 48 8 }

/-- The extra byte of a Format F payload, `P7` (R94). -/
def extraByteOfPayload (p : BitVec 64) : Byte := p.extractLsb' 56 8

/-- A word with a legal `OP` is the operation `i` when its reserved bits are all zero, else illegal (R98). -/
def decodeChecked (op : Byte) (reservedZero : Bool) (i : Instr) : Decoded :=
  if reservedZero then .command i else .illegal (.reservedBits op)

/-- The decoder: the opcode map of R96, the formats of R91 to R94, the operands of R95. -/
def decode (w : CommandWord) : Decoded :=
  let op := opcodeByte w
  let addr : LinearAddress := w.extractLsb' 0 16
  if op = 0x01 then decodeChecked op (w.extractLsb' 8 56 == 0) (.bcddec (payloadByte w 0))
  else if op = 0x02 then decodeChecked op (w.extractLsb' 8 56 == 0) (.bcdenc (payloadByte w 0))
  else if op = 0x10 then decodeChecked op (w.extractLsb' 8 56 == 0) (.rdall (payloadByte w 0))
  else if op = 0x11 then
    decodeChecked op (!w.getLsbD 63) (.wrall (payloadByte w 7) (FieldBytes.ofPayload (w.extractLsb' 0 64)))
  else if op = 0x12 then .command (.wrcomp (payloadByte w 7) (FieldBytes.ofPayload (w.extractLsb' 0 64)))
  else if op = 0x13 then decodeChecked op (w.extractLsb' 0 64 == 0) .wrnow
  else if op = 0x14 then decodeChecked op (w.extractLsb' 0 64 == 0) .rdtemp
  else if op = 0x20 then decodeChecked op (w.extractLsb' 16 48 == 0) (.setaddr addr)
  else if op = 0x21 then decodeChecked op (w.extractLsb' 16 48 == 0) (.mrdb addr)
  else if op = 0x22 then decodeChecked op (w.extractLsb' 24 40 == 0) (.mwrb addr (payloadByte w 2))
  else .illegal (.reservedOpcode op)

/-- The opcode byte of each operation (R96). -/
def Instr.opcode : Instr → Byte
  | .bcddec _ => 0x01
  | .bcdenc _ => 0x02
  | .rdall _ => 0x10
  | .wrall _ _ => 0x11
  | .wrcomp _ _ => 0x12
  | .wrnow => 0x13
  | .rdtemp => 0x14
  | .setaddr _ => 0x20
  | .mrdb _ => 0x21
  | .mwrb _ _ => 0x22

/-- Format Z (R91). -/
def encodeZ (op : Byte) : CommandWord := op ++ 0#64

/-- Format B (R92). -/
def encodeB (op b : Byte) : CommandWord := op ++ 0#56 ++ b

/-- Format A (R93), the address with its low byte in `P0` and its high byte in `P1`, `v` in `P2`. -/
def encodeA (op v : Byte) (addr : LinearAddress) : CommandWord := op ++ 0#40 ++ v ++ addr

/-- Format F (R94). -/
def encodeF (op x : Byte) (f : FieldBytes) : CommandWord :=
  op ++ x ++ f.year ++ f.month ++ f.dom ++ f.wday ++ f.hour ++ f.min ++ f.sec

/-- The command word of an operation. -/
def encode (i : Instr) : CommandWord :=
  match i with
  | .bcddec b => encodeB i.opcode b
  | .bcdenc v => encodeB i.opcode v
  | .rdall c => encodeB i.opcode c
  | .wrall x f => encodeF i.opcode x f
  | .wrcomp c f => encodeF i.opcode c f
  | .wrnow => encodeZ i.opcode
  | .rdtemp => encodeZ i.opcode
  | .setaddr a => encodeA i.opcode 0 a
  | .mrdb a => encodeA i.opcode 0 a
  | .mwrb a v => encodeA i.opcode v a

/-- The command word whose lowest `nbits` bits are `w`'s and whose other bits are zero (log entry 18). -/
def tableWord (nbits w : Nat) : CommandWord := BitVec.ofNat 72 (w % 2 ^ nbits)

/-- The operation the decoder reads from the bits `w` of a row of spec/opcode_table.json; none where it refuses. -/
def decodeTableWord (nbits w : Nat) : Option Instr :=
  match decode (tableWord nbits w) with
  | .command i => some i
  | .illegal _ => none

end Sys2Proof
end

