-- ==== Sys2Proof/Machine/Bcd.lean ====
section
/-! DEFINITION. The functions of the BCD Codec (spec/40_bcd_codec.md R120 to R123). -/

namespace Sys2Proof.Machine

/-- `nib_val(n)`: binary-weight accumulation with the weights 8, 4, 2, 1 (R120). -/
def nibVal (n : BitVec 4) : Nat :=
  8 * (n.getLsbD 3).toNat + 4 * (n.getLsbD 2).toNat + 2 * (n.getLsbD 1).toNat + (n.getLsbD 0).toNat

/-- The tens digit `hi(b)` (R121). -/
def bcdTens (b : Byte) : Nat := nibVal (b.extractLsb' 4 4)

/-- The units digit `lo(b)` (R121). -/
def bcdUnits (b : Byte) : Nat := nibVal (b.extractLsb' 0 4)

/-- `bcd_valid(b)`: both digits at most 9 (R121). -/
def bcdValid (b : Byte) : Bool := decide (bcdTens b ≤ 9) && decide (bcdUnits b ≤ 9)

/-- `bcd_decode(b)` of a valid byte (R122); every use is guarded by `bcdValid`. -/
def bcdDecode (b : Byte) : Byte := BitVec.ofNat 8 (10 * bcdTens b + bcdUnits b)

/-- `bcd_encode(v)` of a number up to 99 (R123); every use is guarded by a range check. -/
def bcdEncode (v : Byte) : Byte := BitVec.ofNat 4 (v.toNat / 10) ++ BitVec.ofNat 4 (v.toNat % 10)

end Sys2Proof.Machine
end

