-- ==== Sys2Proof/Config.lean ====
section
/-! DEFINITION. The implementation parameters of spec/00_scope.md R7 that the machine is built with, and the free
values. A parameter for which the spec gives no default is an opaque constant: nothing can be proved of its value. -/

namespace Sys2Proof

/-- The strap default of `CLOCK_ADDR`: "default 0x68" (R7, R33). -/
def Config.clockAddrDefault : Byte := 0x68

/-- The strap value of `MEM_ADDR`: `OPEN`, no default (R7, R34; log entry 2). -/
opaque Config.memAddrStrap : Byte

/-- The default register offsets, 0x00 to 0x06 in the order of R11 (R36, which marks them as general knowledge;
log entry 3). State holds the offsets, so that the model is generic in them. -/
def Config.offsetDefault : FieldBytes :=
  { sec := 0x00, min := 0x01, hour := 0x02, wday := 0x03, dom := 0x04, month := 0x05, year := 0x06 }

/-- `MEM_CAPACITY`: the number of bytes the memory device really holds, `OPEN` (R7, R68; log entry 4). -/
opaque Config.memCapacity : Nat

/-- `CENTURY_DEFAULT` (R7, R37). -/
def Config.centuryDefault : Byte := 21

/-- `T_SETTLE` in milliseconds (R7, R37). -/
def Config.settleMs : Nat := 200

/-- `ENC_OOR`: the byte BCDENC returns for an operand above 99, "a free draw per use, under no law: not even that two
uses with the same v agree" (R125). The argument is the number of the draw (log entry 5). -/
opaque Config.encOor : Nat → Byte

end Sys2Proof
end

