-- ==== Sys2Proof/Machine/State.lean ====
section
/-! DEFINITION. The state of the block and of the environment it acts on, as plain data (spec/10_state.md), the
messages of its two ports (spec/20_memory.md R79, spec/30_encoding.md R103), and the state after reset (R43, R241). -/

namespace Sys2Proof.Machine

/-! ## The transport port -/

/-- A transport request (R61 to R64, R79). A block write carries the two pointer bytes and, when its length is 3, a
data byte. -/
inductive Request where
  | wrreg (dev reg val : Byte)
  | rdreg (dev reg : Byte)
  | rdraw (dev : Byte)
  | wrblk (dev hi lo : Byte) (val : Option Byte)
  deriving DecidableEq, Repr

/-- A transport response `{ok, cause, data}` (R79): `cause` is meaningful when `ok` is false, `data` when `ok` is true
and the request is a read. -/
structure TransportResponse where
  ok : Bool
  cause : BitVec 2
  data : Byte
  deriving DecidableEq, Repr

/-! ## The response port -/

/-- The status `ST` of a response (R103, R210); the codes 5 to 7 are never produced and have no constructor. -/
inductive Status where
  | ok
  | rangeError
  | transportError
  | undefinedDecodeError
  | illegalCommand
  deriving DecidableEq, Repr

/-- The result of RDALL (R104): seven decoded values, the century base and the signed 16-bit full year. -/
structure DateTime where
  fields : FieldBytes
  cent : Byte
  fullYear : BitVec 16
  deriving DecidableEq, Repr

/-- The result payload `RES` of each operation (R104). -/
inductive Result where
  | val (v : Byte)
  | bcd (b : Byte)
  | dateTime (d : DateTime)
  | tempq (q : BitVec 10)
  | data (d : Byte)
  | empty
  deriving DecidableEq, Repr

/-- A response `{ST, TE, EF, RES}` (R103): `ef` is none for the code 7, `res` is none when `ST` is not `OK`. -/
structure Response where
  st : Status
  te : BitVec 2
  ef : Option TimeField
  res : Option Result
  deriving DecidableEq, Repr

/-! ## The sequencer and the settle timer -/

/-- One step of an operation's fixed step sequence (R31). -/
inductive MicroOp where
  /-- `ClkRead(OFFSET[k])` and the decode of the byte (R145). -/
  | readField (k : TimeField)
  /-- `field_write(k, v)` (R143). -/
  | writeField (k : TimeField) (v : Byte)
  /-- `ClkRead(TEMP_WHOLE_OFF)` (R157). -/
  | readTempWhole
  /-- `ClkRead(TEMP_FRAC_OFF)` (R157). -/
  | readTempFrac
  /-- `T.writeBlock(MEM_ADDR, [addr div 256, addr mod 256])` (R192). -/
  | sendPointer (addr : LinearAddress)
  /-- `T.writeBlock(MEM_ADDR, [addr div 256, addr mod 256, val])` (R195). -/
  | sendData (addr : LinearAddress) (val : Byte)
  /-- `T.readRaw(MEM_ADDR)` (R194). -/
  | readRaw
  /-- `start SETTLE; WaitSettle()` (R195, R249). -/
  | waitSettle
  deriving DecidableEq, Repr

/-- An operation in progress: "the position within the operation's fixed step sequence ... and the operation's
operands" (R31). `todo` is what is left of the sequence, its head the step that is being waited for; `got` holds the
bytes the steps before it delivered. -/
structure Operation where
  instr : Instr
  got : List Byte
  todo : List MicroOp
  deriving DecidableEq, Repr

/-- The sequencer `SEQ` (R31). -/
inductive Sequencer where
  | idle
  | busy (o : Operation)
  deriving DecidableEq, Repr

/-- The settle timer `SETTLE` (R38). -/
inductive SettleTimer where
  | stopped
  | running
  deriving DecidableEq, Repr

/-! ## The environment -/

/-- Known contents of a byte store: (address, byte) pairs, addresses strictly rising (`Memory.wf`). An unlisted address
reads as none: nothing is known of it ("a model takes every register and memory byte as unknown until written", R246). -/
abbrev Memory := List Host.Cell

/-- What the spec lets one know of the two chips behind the transport (R41, R42, R198, R247; log entry 7). No operation
of the block reads it: a transport read is answered by the environment. -/
structure Chips where
  /-- The byte the last successful write left in each clock register (the chip may have advanced it since, R41). -/
  clock : Memory
  /-- The memory device's bytes. -/
  mem : Memory
  /-- The memory device's address pointer; none where its position is not in the source (R198). -/
  ptr : Option LinearAddress
  /-- Whether the memory device may be inside a write cycle (R247). -/
  writeCycle : Bool
  deriving DecidableEq, Repr

/-- The strap inputs sampled at reset (R240). -/
structure Straps where
  clockAddr : Byte
  memAddr : Byte
  deriving DecidableEq, Repr

/-- What the host does at the command port, in order. -/
inductive HostEvent where
  /-- Presents a command word (R101). -/
  | command (w : CommandWord)
  /-- Changes the input `HOSTTIME` (R39). -/
  | setHostTime (v : BitVec 64)
  /-- Lets `T_SETTLE` and `extraMs` milliseconds more pass without a command (R245). -/
  | pause (extraMs : Nat)
  deriving DecidableEq, Repr

/-- The state. Three groups of fields: the block's own state; the environment's inputs, which a claim quantifies over
(R44); and the model's own record of what the block sent out. -/
structure State where
  /-- `CLOCK_ADDR` (R33). -/
  clockAddr : Byte
  /-- `MEM_ADDR` (R34). -/
  memAddr : Byte
  /-- The transport link is open (R35). -/
  linkOpen : Bool
  /-- `SEQ` (R31). -/
  seq : Sequencer
  /-- `SETTLE` (R38). -/
  settle : SettleTimer
  /-- `OFFSET[k]`, the offset column of the TimeField table, fixed at construction (R7, R36). -/
  offsets : FieldBytes
  /-- `MEM_CAPACITY` (R7, R68). -/
  memCapacity : Nat
  /-- The input `HOSTTIME` (R39). -/
  hostTime : BitVec 64
  /-- The input `RST`: asserted, with the straps it samples (R240). -/
  rst : Option Straps
  /-- The host's coming actions at the command port (R101). -/
  hostQueue : List HostEvent
  /-- The transport's coming answers, one for each request; empty while the transport has not answered (R60). -/
  answers : List TransportResponse
  /-- For each coming settle wait, by how many milliseconds the timer outlasts `T_SETTLE`; empty while the timer has
  not elapsed (R249). -/
  settleExtras : List Nat
  /-- The block is the only user of the transport and of the two devices (R226, R244). -/
  soleOwner : Bool
  /-- The two chips behind the transport. -/
  chips : Chips
  /-- Every transport request sent, in order (the model's own record). -/
  requests : List Request
  /-- Every response issued, in order (the model's own record). -/
  responses : List Response
  /-- A lower bound, in milliseconds, of the time that has passed in settle waits and pauses (the model's own). -/
  elapsedMs : Nat
  /-- The number of free values drawn so far (the model's own, log entry 5). -/
  freeDraws : Nat
  deriving DecidableEq, Repr

/-- The reasons a step can stop with a fault. There are none: the spec reports every error in a response (R210, R216)
and renders a transport that never answers as a block that stays `BUSY` (R221). -/
inductive Fault where
  deriving DecidableEq, Repr

/-- The reasons the model gives a step no meaning. -/
inductive Refusal where
  /-- Raised by `exec` for an instruction that has no meaning yet; none is left. Safe. -/
  | notModelled (mnemonic : String)
  /-- Raised by a transport request while the transport link is not open: R244 (1) makes an open link a condition of
  every rule, and the spec gives the closed link no behaviour. Unreachable from reset (R35). Safe. -/
  | linkNotOpen
  /-- Raised by a transport request, by the settle wait and by the host's pause while something else uses the transport
  or the two devices: "a model refuses such a configuration, that is, it gives it no meaning" (R226). Safe. -/
  | transportShared
  deriving DecidableEq, Repr

/-- The chips before anything is known of them (R43, R246; log entry 8). -/
def Chips.unknown : Chips := { clock := [], mem := [], ptr := none, writeCycle := true }

/-- The machine right after reset (R43, R241), the straps at their defaults, nothing presented by the environment. -/
def State.reset : State :=
  { clockAddr := Config.clockAddrDefault
    memAddr := Config.memAddrStrap
    linkOpen := true
    seq := .idle
    settle := .stopped
    offsets := Config.offsetDefault
    memCapacity := Config.memCapacity
    hostTime := 0
    rst := none
    hostQueue := []
    answers := []
    settleExtras := []
    soleOwner := true
    chips := Chips.unknown
    requests := []
    responses := []
    elapsedMs := 0
    freeDraws := 0 }

end Sys2Proof.Machine
end

