-- ==== Sys2Proof/Machine/Operands.lean ====
section
/-! DEFINITION. The TimeField table (spec/10_state.md R36), the constants of R37, the field read pipeline (R140), the
century and weekday arithmetic (R147, R154), the temperature (R159), the address split (R190), and the assembly of
each operation's step sequence from its operands (R95). -/

namespace Sys2Proof.Machine

/-! ## The TimeField table -/

/-- The index k of a field (R11). -/
def fieldIndex : TimeField → Nat
  | .sec => 0
  | .min => 1
  | .hour => 2
  | .wday => 3
  | .dom => 4
  | .month => 5
  | .year => 6

/-- `lo[k]`, the lower bound on writes (R36). -/
def fieldLo : TimeField → Nat
  | .sec => 0
  | .min => 0
  | .hour => 0
  | .wday => 1
  | .dom => 1
  | .month => 1
  | .year => 0

/-- `hi[k]`, the upper bound on writes (R36). -/
def fieldHi : TimeField → Nat
  | .sec => 59
  | .min => 59
  | .hour => 23
  | .wday => 7
  | .dom => 31
  | .month => 12
  | .year => 99

/-- `MASK[k]`, applied on reads (R36, R142). -/
def fieldMask : TimeField → Byte
  | .sec => 0x7F
  | .min => 0xFF
  | .hour => 0x3F
  | .wday => 0xFF
  | .dom => 0xFF
  | .month => 0xFF
  | .year => 0xFF

/-- `HOUR_SENTINEL` (R37). -/
def hourSentinel : Byte := 0x64

/-- `HOUR_REMAP` (R37). -/
def hourRemap : Byte := 0x40

/-- `TEMP_WHOLE_OFF` (R37). -/
def tempWholeOffset : Byte := 0x11

/-- `TEMP_FRAC_OFF` (R37). -/
def tempFracOffset : Byte := 0x12

/-- The order in which RDALL reads the fields (R145). -/
def readOrder : List TimeField := [.sec, .min, .hour, .wday, .dom, .month, .year]

/-- The order in which fields are written (R144). -/
def writeOrder : List TimeField := [.sec, .min, .hour, .year, .month, .dom, .wday]

/-! ## Field pipelines -/

/-- The inclusive range check of `field_write` (R143). -/
def fieldInRange (k : TimeField) (v : Byte) : Bool :=
  decide (fieldLo k ≤ v.toNat) && decide (v.toNat ≤ fieldHi k)

/-- The sentinel remap: the hours field only, and only the whole raw byte (R141). -/
def fieldRemap (k : TimeField) (raw : Byte) : Byte :=
  if k = .hour ∧ raw = hourSentinel then hourRemap else raw

/-- `field_decode(k, raw)`: remap, then mask, then decode; none where it raises `UndefinedDecodeError` (R140). -/
def fieldDecode (k : TimeField) (raw : Byte) : Option Byte :=
  let m := fieldRemap k raw &&& fieldMask k
  if bcdValid m then some (bcdDecode m) else none

/-! ## Arithmetic of the composite, the temperature and the address -/

/-- `full_year(century, y)` over the integers (R147). -/
def fullYear (century y : Byte) : Int := ((century.toNat : Int) - 1) * 100 + (y.toNat : Int)

/-- `iso_weekday(Y, M, D)`, Monday = 1 to Sunday = 7 (R154); `/` and `%` with a positive divisor are the floor
division and remainder of R9. -/
def isoWeekday (Y M D : Int) : Int :=
  let a := (14 - M) / 12
  let y := Y - a
  let m := M + 12 * a - 2
  let d0 := (D + y + y / 4 - y / 100 + y / 400 + (31 * m) / 12) % 7
  (d0 + 6) % 7 + 1

/-- The weekday byte WRCOMP writes: the weekday of the composite's own date (R152, R153). -/
def compositeWeekday (century : Byte) (f : FieldBytes) : Byte :=
  BitVec.ofInt 8 (isoWeekday (fullYear century f.year) f.month.toNat f.dom.toNat)

/-- `temp_q(w, q)`: four times the whole byte plus the top two bits of the fraction byte, unsigned (R158 to R160). -/
def tempQ (w q : Byte) : BitVec 10 := 4#10 * w.setWidth 10 + (q.extractLsb' 6 2).setWidth 10

/-- The high pointer byte, `addr div 256` (R190). -/
def addrHi (a : LinearAddress) : Byte := BitVec.ofNat 8 (a.toNat / 256)

/-- The low pointer byte, `addr mod 256` (R190). -/
def addrLo (a : LinearAddress) : Byte := BitVec.ofNat 8 (a.toNat % 256)

/-! ## Step sequences from operands -/

/-- The steps of RDALL (R145). -/
def readPlan : List MicroOp := readOrder.map .readField

/-- `present[k]` = bit k of the extra byte of WRALL (R95). -/
def presentIn (x : Byte) (k : TimeField) : Bool := x.getLsbD (fieldIndex k)

/-- The steps of WRALL: a field write for each present field, in the write order (R149). -/
def writePlan (x : Byte) (f : FieldBytes) : List MicroOp :=
  (writeOrder.filter (presentIn x)).map fun k => .writeField k (f.get k)

/-- The present mask with all seven fields present. -/
def allPresent : Byte := 0x7F

/-- The field values WRCOMP writes: the composite's, with the weekday computed (R152). -/
def compositeFields (century : Byte) (f : FieldBytes) : FieldBytes :=
  { f with wday := compositeWeekday century f }

/-- The steps of WRCOMP (R152). -/
def compositePlan (century : Byte) (f : FieldBytes) : List MicroOp :=
  writePlan allPresent (compositeFields century f)

end Sys2Proof.Machine
end

