-- ==== Sys2Proof/Machine/Flags.lean ====
section
/-! DEFINITION. The status of a response: the error classes of spec/60_exceptions.md R210 to R214 and their codes on
the response port (spec/30_encoding.md R103). The block has no flags (R32). -/

namespace Sys2Proof.Machine

/-- An error met by an operation, with what it records (R211 to R214). -/
inductive OpError where
  /-- `RangeError` scoped to field k (R211). -/
  | range (k : TimeField)
  /-- `TransportError` with the transport's cause, and the field being read or written, if any (R212). -/
  | transport (cause : BitVec 2) (ef : Option TimeField)
  /-- `UndefinedDecodeError`, with the field in RDALL (R213). -/
  | undefinedDecode (ef : Option TimeField)
  /-- `IllegalCommand` (R214). -/
  | illegal
  deriving DecidableEq, Repr

/-- The response to an error: `TE` is 0 unless the status is `TransportError`, and there is no result (R103, R216). -/
def errorResponse : OpError → Response
  | .range k => { st := .rangeError, te := 0, ef := some k, res := none }
  | .transport c ef => { st := .transportError, te := c, ef := ef, res := none }
  | .undefinedDecode ef => { st := .undefinedDecodeError, te := 0, ef := ef, res := none }
  | .illegal => { st := .illegalCommand, te := 0, ef := none, res := none }

/-- The response `OK(result)` (R10, R103). -/
def okResponse (r : Result) : Response := { st := .ok, te := 0, ef := none, res := some r }

/-- The code of `ST`, 3 bits (R103, R210). -/
def Status.code : Status → BitVec 3
  | .ok => 0
  | .rangeError => 1
  | .transportError => 2
  | .undefinedDecodeError => 3
  | .illegalCommand => 4

/-- The code of `EF`, 3 bits: the field's index, or 7 for no field (R103). -/
def errorFieldCode : Option TimeField → BitVec 3
  | some k => BitVec.ofNat 3 (fieldIndex k)
  | none => 7

end Sys2Proof.Machine
end

