-- ==== Sys2Proof/Machine/Ops.lean ====
section
/-! DEFINITION. The shared operations: the byte stores of the chips, a transport request and its effect (spec/20_memory.md
R60 to R65), one step of an operation, running an operation (spec/10_state.md R31), ending it with a result or an error
(spec/60_exceptions.md R216), and reset (spec/70_reset_and_hazards.md R240 to R243). -/

namespace Sys2Proof.Machine

/-! ## Byte stores -/

/-- The canonical form of a store: addresses strictly rising, so that equal knowledge is equal data. -/
abbrev Memory.wf (m : Memory) : Prop := List.Pairwise (fun c d => c.1 < d.1) m

/-- The known byte at an address; none where nothing is known. -/
def Memory.read : Memory → Nat → Option Byte
  | [], _ => none
  | c :: m, a => if c.1 = a then some c.2 else Memory.read m a

/-- `m` with the byte at `a` known to be `b`. -/
def Memory.write : Memory → Nat → Byte → Memory
  | [], a, b => [(a, b)]
  | c :: m, a, b =>
    if a < c.1 then (a, b) :: c :: m
    else if a = c.1 then (a, b) :: m
    else c :: Memory.write m a b

/-- `m` with nothing known of the byte at `a`. -/
def Memory.forget (m : Memory) (a : Nat) : Memory := m.filter fun c => c.1 != a

/-! ## The chips' side of a transport request -/

/-- The linear address a pair of pointer bytes names, high byte first (R193). -/
def pointerAddress (hi lo : Byte) : LinearAddress := hi ++ lo

/-- What is known of the memory device's bytes after a data write: the byte at the address after a successful one;
either byte, so nothing, after a failed one (R65); nothing at all at or above the capacity (R68) or when the device may
be inside a write cycle (R247). -/
def Chips.memAfterWrite (c : Chips) (capacity : Nat) (a : LinearAddress) (val : Byte) (ok : Bool) : Memory :=
  if c.writeCycle || decide (capacity ≤ a.toNat) then []
  else if ok then Memory.write c.mem a.toNat val
  else Memory.forget c.mem a.toNat

/-- What is known of the chips after a request that ended in success (`ok`) or otherwise (R65, R72, R198, R242,
R247; log entry 7). -/
def Chips.after (c : Chips) (capacity : Nat) (ok : Bool) : Request → Chips
  | .wrreg _ reg val =>
    { c with clock := if ok then Memory.write c.clock reg.toNat val else Memory.forget c.clock reg.toNat }
  | .rdreg _ _ => c
  | .rdraw _ => { c with ptr := none }
  | .wrblk _ hi lo none =>
    { c with
      ptr := if ok && !c.writeCycle then some (pointerAddress hi lo) else none
      mem := if c.writeCycle then [] else c.mem }
  | .wrblk _ hi lo (some v) =>
    { c with
      mem := c.memAfterWrite capacity (pointerAddress hi lo) v ok
      ptr := none
      writeCycle := true }

/-- The byte a read of `a` must deliver where the device's contract fixes it: a byte written by a successful data
write whose settle delay has passed (R196, R198). -/
def Chips.readBack (c : Chips) (a : LinearAddress) : Option Byte :=
  if c.writeCycle then none else Memory.read c.mem a.toNat

/-! ## Ending an operation -/

/-- Issues a response and returns the sequencer to `IDLE` (R101). -/
def respond (r : Response) (s : State) : State :=
  { s with seq := .idle, responses := s.responses ++ [r] }

/-- Meeting an error, the block's "trap entry": the operation stops, the response carries the status and no result,
the sequencer returns to `IDLE`, nothing is saved (R216). There is no return operation (R218). -/
def raiseError (e : OpError) (s : State) : State := respond (errorResponse e) s

/-! ## One step of an operation -/

/-- The transport request a step makes; none for the settle wait. -/
def MicroOp.request (s : State) : MicroOp → Option Request
  | .readField k => some (.rdreg s.clockAddr (s.offsets.get k))
  | .writeField k v => some (.wrreg s.clockAddr (s.offsets.get k) (bcdEncode v))
  | .readTempWhole => some (.rdreg s.clockAddr tempWholeOffset)
  | .readTempFrac => some (.rdreg s.clockAddr tempFracOffset)
  | .sendPointer a => some (.wrblk s.memAddr (addrHi a) (addrLo a) none)
  | .sendData a v => some (.wrblk s.memAddr (addrHi a) (addrLo a) (some v))
  | .readRaw => some (.rdraw s.memAddr)
  | .waitSettle => none

/-- The error a step meets before it makes any request: a field value out of range (R143, R211). -/
def MicroOp.check : MicroOp → Option OpError
  | .writeField k v => if fieldInRange k v then none else some (.range k)
  | .readField _ => none
  | .readTempWhole => none
  | .readTempFrac => none
  | .sendPointer _ => none
  | .sendData _ _ => none
  | .readRaw => none
  | .waitSettle => none

/-- The field a transport failure of the step is scoped to (R103, R212). -/
def MicroOp.errorField : MicroOp → Option TimeField
  | .readField k => some k
  | .writeField k _ => some k
  | .readTempWhole => none
  | .readTempFrac => none
  | .sendPointer _ => none
  | .sendData _ _ => none
  | .readRaw => none
  | .waitSettle => none

/-- What a step makes of the byte its successful request delivered: the bytes it adds to the operation's values, or
the decode error it meets (R140, R157, R194). -/
def MicroOp.receive (d : Byte) : MicroOp → Except OpError (List Byte)
  | .readField k =>
    match fieldDecode k d with
    | some v => .ok [v]
    | none => .error (.undefinedDecode (some k))
  | .readTempWhole => .ok [d]
  | .readTempFrac => .ok [d]
  | .readRaw => .ok [d]
  | .writeField _ _ => .ok []
  | .sendPointer _ => .ok []
  | .sendData _ _ => .ok []
  | .waitSettle => .ok []

/-- The request goes out to the transport. -/
def sendRequest (r : Request) (s : State) : State := { s with requests := s.requests ++ [r] }

/-- The transport's answer `a` to the request `r` comes in, `rest` being the answers still to come. -/
def takeAnswer (r : Request) (a : TransportResponse) (rest : List TransportResponse) (s : State) : State :=
  { s with answers := rest, chips := s.chips.after s.memCapacity a.ok r }

/-- How a transport request stands (R60). -/
inductive Transfer where
  | answered (s : State) (a : TransportResponse)
  | silent (s : State)
  | refused (r : Refusal)

/-- The transport's answer to the outstanding request, if it has given one (R60). -/
def awaitAnswer (r : Request) (s : State) : Transfer :=
  match s.answers with
  | [] => .silent s
  | a :: rest => .answered (takeAnswer r a rest s) a

/-- Sends a request, unless it is outstanding already (`issued`), and takes the transport's answer if it has given
one (R60, R79). -/
def transact (r : Request) (issued : Bool) (s : State) : Transfer :=
  if !s.linkOpen then .refused .linkNotOpen
  else if !s.soleOwner then .refused .transportShared
  else awaitAnswer r (if issued then s else sendRequest r s)

/-- How one step of an operation ended. -/
inductive StepResult where
  | done (s : State) (out : List Byte)
  | waiting (s : State)
  | failed (s : State) (e : OpError)
  | refused (r : Refusal)

/-- The settle timer is `RUNNING` (R38). -/
def startSettle (s : State) : State := { s with settle := .running }

/-- The settle timer elapses, `extra` milliseconds later than it must, and is `STOPPED`; the device's write cycle is
then over (R196, R249). -/
def elapseSettle (extra : Nat) (rest : List Nat) (s : State) : State :=
  { s with
    settle := .stopped
    settleExtras := rest
    elapsedMs := s.elapsedMs + (Config.settleMs + extra)
    chips := { s.chips with writeCycle := false } }

/-- `start SETTLE; WaitSettle()`: the timer runs until it elapses, no sooner than `T_SETTLE` after its start (R249).
While something else uses the devices, nothing "about the settle delay holds" and the wait is refused (R226). -/
def waitSettle (s : State) : StepResult :=
  if !s.soleOwner then .refused .transportShared
  else
    match s.settleExtras with
    | [] => .waiting (startSettle s)
    | extra :: rest => .done (elapseSettle extra rest (startSettle s)) []

/-- One step: its check, then its request, then what it makes of the answer (R143, R215). -/
def performStep (m : MicroOp) (issued : Bool) (s : State) : StepResult :=
  match m.check with
  | some e => .failed s e
  | none =>
    match m.request s with
    | none => waitSettle s
    | some r =>
      match transact r issued s with
      | .refused x => .refused x
      | .silent s' => .waiting s'
      | .answered s' a =>
        if a.ok then
          match m.receive a.data with
          | .ok out => .done s' out
          | .error e => .failed s' e
        else .failed s' (.transport a.cause m.errorField)

/-! ## Running an operation -/

/-- The result payload of an operation that met no error, from the bytes its steps delivered (R104). -/
def operationResult (i : Instr) (got : List Byte) : Result :=
  match i with
  | .rdall c =>
    .dateTime
      { fields :=
          { sec := got.getD 0 0
            min := got.getD 1 0
            hour := got.getD 2 0
            wday := got.getD 3 0
            dom := got.getD 4 0
            month := got.getD 5 0
            year := got.getD 6 0 }
        cent := c
        fullYear := BitVec.ofInt 16 (fullYear c (got.getD 6 0)) }
  | .rdtemp => .tempq (tempQ (got.getD 0 0) (got.getD 1 0))
  | .mrdb _ => .data (got.getD 0 0)
  | .bcddec _ => .empty
  | .bcdenc _ => .empty
  | .wrall _ _ => .empty
  | .wrcomp _ _ => .empty
  | .wrnow => .empty
  | .setaddr _ => .empty
  | .mwrb _ _ => .empty

/-- The sequencer is `BUSY`, holding the operation's position and operands (R31). -/
def waitAt (o : Operation) (s : State) : State := { s with seq := .busy o }

/-- Runs what is left of an operation as far as the environment lets it: to its response, or to a step it must wait
for, where the sequencer holds the position and the operands (R31, R73, R216). `issued` says that the first step's
request is outstanding already. -/
def runSteps (i : Instr) : List MicroOp → Bool → List Byte → State → Host.Outcome State Fault Refusal
  | [], _, got, s => .next (respond (okResponse (operationResult i got)) s)
  | m :: rest, issued, got, s =>
    match performStep m issued s with
    | .done s' out => runSteps i rest false (got ++ out) s'
    | .waiting s' => .next (waitAt { instr := i, got := got, todo := m :: rest } s')
    | .failed s' e => .next (raiseError e s')
    | .refused r => .refused r

/-- Runs an operation from its first step. -/
def startOperation (i : Instr) (plan : List MicroOp) (s : State) : Host.Outcome State Fault Refusal :=
  runSteps i plan false [] s

/-- Goes on with the operation in progress: its first remaining step is the one being waited for (R31). -/
def resumeOperation (o : Operation) (s : State) : Host.Outcome State Fault Refusal :=
  runSteps o.instr o.todo true o.got s

/-! ## The outstanding request, reset, the host's pause -/

/-- The transport request outstanding, if any (R60): at most one, by its type. -/
def State.outstanding (s : State) : Option Request :=
  match s.seq with
  | .idle => none
  | .busy o =>
    match o.todo with
    | [] => none
    | m :: _ => m.request s

/-- Asserting `RST` (R240 to R243): the operation in progress is abandoned without a response, the timer is stopped
without having elapsed, the addresses are sampled from the straps; the chips are not touched, but whether an outstanding
transfer completes on the bus is unknown, and the transport's late answer to it is dropped. DESIGN CHOICE, unsafe (log
entry 21): R242 does not say by when such a transfer can still take effect; it is settled here, in the reset step, and
cannot land after a later request or the host's pause. -/
def applyReset (p : Straps) (s : State) : State :=
  { s with
    clockAddr := p.clockAddr
    memAddr := p.memAddr
    linkOpen := true
    seq := .idle
    settle := .stopped
    rst := none
    answers :=
      match s.outstanding with
      | none => s.answers
      | some _ => s.answers.tail
    chips :=
      match s.outstanding with
      | none => s.chips
      | some r => s.chips.after s.memCapacity false r }

/-- The host lets `T_SETTLE` and `extraMs` milliseconds more pass without a command: a write cycle the device may
have been in is over (R245, R247), an abandoned transfer's included (log entry 21). -/
def hostPause (extraMs : Nat) (s : State) : State :=
  { s with
    elapsedMs := s.elapsedMs + (Config.settleMs + extraMs)
    chips := { s.chips with writeCycle := false } }

/-! ## The transport port's message layout -/

/-- A transport request as the message `{kind, dev, reg, val, len, blk}` of R79; a member that is not meaningful for
the kind is none, so it has no value. -/
structure PortMessage where
  kind : BitVec 2
  dev : Byte
  reg : Option Byte
  val : Option Byte
  len : Option (BitVec 2)
  blk : List Byte
  deriving DecidableEq, Repr

/-- The message of a request (R64, R79): the block's bytes in sequence order, high pointer byte first (R193). -/
def Request.message : Request → PortMessage
  | .wrreg d r v => { kind := 0, dev := d, reg := some r, val := some v, len := none, blk := [] }
  | .rdreg d r => { kind := 1, dev := d, reg := some r, val := none, len := none, blk := [] }
  | .rdraw d => { kind := 2, dev := d, reg := none, val := none, len := none, blk := [] }
  | .wrblk d hi lo none => { kind := 3, dev := d, reg := none, val := none, len := some 2, blk := [hi, lo] }
  | .wrblk d hi lo (some v) => { kind := 3, dev := d, reg := none, val := none, len := some 3, blk := [hi, lo, v] }

end Sys2Proof.Machine
end

