-- ==== Sys2Proof/Machine/Addressor.lean ====
section
/-! DEFINITION. The operations of the Paged Memory Addressor (spec/42_paged_memory_addressor.md). -/

namespace Sys2Proof.Machine

/-- SETADDR (R192): the pointer write. -/
def execSetaddr (addr : LinearAddress) (s : State) : Host.Outcome State Fault Refusal :=
  startOperation (.setaddr addr) [.sendPointer addr] s

/-- MRDB (R194): the pointer write, then one raw read. -/
def execMrdb (addr : LinearAddress) (s : State) : Host.Outcome State Fault Refusal :=
  startOperation (.mrdb addr) [.sendPointer addr, .readRaw] s

/-- MWRB (R195): address and data in one transfer, then the settle delay. -/
def execMwrb (addr : LinearAddress) (val : Byte) (s : State) : Host.Outcome State Fault Refusal :=
  startOperation (.mwrb addr val) [.sendData addr val, .waitSettle] s

end Sys2Proof.Machine
end

