-- ==== Sys2Proof/Machine/Clock.lean ====
section
/-! DEFINITION. The operations of the Clock Register Model (spec/41_clock_register_model.md). -/

namespace Sys2Proof.Machine

/-- RDALL (R145): seven reads, each byte decoded before the next is read. -/
def execRdall (century : Byte) (s : State) : Host.Outcome State Fault Refusal :=
  startOperation (.rdall century) readPlan s

/-- WRALL (R149): the present fields in the write order, each checked and then written. -/
def execWrall (x : Byte) (f : FieldBytes) (s : State) : Host.Outcome State Fault Refusal :=
  startOperation (.wrall x f) (writePlan x f) s

/-- WRCOMP (R152): all seven fields, the weekday computed from the date. -/
def execWrcomp (century : Byte) (f : FieldBytes) (s : State) : Host.Outcome State Fault Refusal :=
  startOperation (.wrcomp century f) (compositePlan century f) s

/-- WRNOW (R155): WRCOMP of the host's time, sampled once at acceptance (R156). -/
def execWrnow (s : State) : Host.Outcome State Fault Refusal :=
  startOperation .wrnow (compositePlan (extraByteOfPayload s.hostTime) (FieldBytes.ofPayload s.hostTime)) s

/-- RDTEMP (R157): the whole-degree byte, then the fraction byte. -/
def execRdtemp (s : State) : Host.Outcome State Fault Refusal :=
  startOperation .rdtemp [.readTempWhole, .readTempFrac] s

end Sys2Proof.Machine
end

