-- ==== Sys2Proof/Machine/Codec.lean ====
section
/-! DEFINITION. The operations of the BCD Codec (spec/40_bcd_codec.md): no transport request, no side effect but the
response. -/

namespace Sys2Proof.Machine

/-- BCDDEC (R124). -/
def execBcddec (b : Byte) (s : State) : Host.Outcome State Fault Refusal :=
  if bcdValid b then .next (respond (okResponse (.val (bcdDecode b))) s)
  else .next (raiseError (.undefinedDecode none) s)

/-- BCDENC (R125): above 99 the byte is a free value, drawn anew at each use. -/
def execBcdenc (v : Byte) (s : State) : Host.Outcome State Fault Refusal :=
  if v.toNat ≤ 99 then .next (respond (okResponse (.bcd (bcdEncode v))) s)
  else
    .next (respond (okResponse (.bcd (Config.encOor s.freeDraws))) { s with freeDraws := s.freeDraws + 1 })

end Sys2Proof.Machine
end

