-- ==== Sys2Proof/Machine/Dispatch.lean ====
section
/-! DEFINITION. One arm for each constructor of `Instr` (spec/30_encoding.md R96). -/

namespace Sys2Proof.Machine

def exec (i : Instr) (s : State) : Host.Outcome State Fault Refusal :=
  match i with
  | .bcddec b => Sys2Proof.Machine.execBcddec b s
  | .bcdenc v => Sys2Proof.Machine.execBcdenc v s
  | .rdall century => Sys2Proof.Machine.execRdall century s
  | .wrall x f => Sys2Proof.Machine.execWrall x f s
  | .wrcomp century f => Sys2Proof.Machine.execWrcomp century f s
  | .wrnow => Sys2Proof.Machine.execWrnow s
  | .rdtemp => Sys2Proof.Machine.execRdtemp s
  | .setaddr addr => Sys2Proof.Machine.execSetaddr addr s
  | .mrdb addr => Sys2Proof.Machine.execMrdb addr s
  | .mwrb addr val => Sys2Proof.Machine.execMwrb addr val s

end Sys2Proof.Machine
end

