-- ==== Sys2Proof/Machine/Port.lean ====
section
/-! DEFINITION. The command port: accepting what the host presents while the sequencer is `IDLE`
(spec/30_encoding.md R101, R102). Step.lean only calls this. -/

namespace Sys2Proof.Machine

/-- Accepts a command word: decode comes first, and an illegal word is answered at once with no side effect (R97, R98,
R102, R214). -/
def acceptCommand (w : CommandWord) (s : State) : Host.Outcome State Fault Refusal :=
  match decode w with
  | .command i => exec i s
  | .illegal _ => .next (raiseError .illegal s)

/-- The host's pause, refused while something else uses the devices: nothing of the settle delay then holds (R226). -/
def pauseCommand (extra : Nat) (s : State) : Host.Outcome State Fault Refusal :=
  if !s.soleOwner then .refused .transportShared else .next (hostPause extra s)

/-- What the host does next at the command port; with nothing presented the block does nothing (R241). -/
def hostStep (s : State) : Host.Outcome State Fault Refusal :=
  match s.hostQueue with
  | [] => .next s
  | .command w :: rest => acceptCommand w { s with hostQueue := rest }
  | .setHostTime v :: rest => .next { s with hostQueue := rest, hostTime := v }
  | .pause extra :: rest => pauseCommand extra { s with hostQueue := rest }

/-- `s` with a command word presented first and accepted by the very next step: `IDLE`, timer stopped, `RST` not
asserted. -/
def presentCommand (w : CommandWord) (s : State) : State :=
  { s with hostQueue := .command w :: s.hostQueue, seq := .idle, settle := .stopped, rst := none }

end Sys2Proof.Machine
end

