-- ==== Sys2Proof/Machine/Step.lean ====
section
/-! DEFINITION. One step of the machine: reset when `RST` is asserted (spec/70_reset_and_hazards.md R240), the host's
next action at the command port when the sequencer is `IDLE`, the operation in progress when it is `BUSY`
(spec/10_state.md R31). -/

namespace Sys2Proof.Machine

/-- One step. -/
def step (s : State) : Host.Outcome State Fault Refusal :=
  match s.rst with
  | some p => .next (applyReset p s)
  | none =>
    match s.seq with
    | .idle => hostStep s
    | .busy o => resumeOperation o s

/-- `s` with the command word of the bits `w` presented, so that the next step runs it (log entry 18). -/
def State.withFetchWord (s : State) (nbits w : Nat) : State := presentCommand (tableWord nbits w) s

end Sys2Proof.Machine
end

