-- ==== Sys2Proof/Machine/Assembler.lean ====
section
/-! DEFINITION. The spec's assembler syntax, one command a line (spec/30_encoding.md R105, R106), from the characters of
a line to its command word. The machine does not use it. -/

namespace Sys2Proof.Machine

/-! ## From characters to lexemes -/

/-- A lexeme: a run of letters and digits, a comma, or an equals sign. -/
inductive Lexeme where
  | atom (cs : List Char)
  | comma
  | equals
  deriving DecidableEq, Repr

/-- The atom collected so far (in reverse), if any, in front of `ls`. -/
def flushAtom (acc : List Char) (ls : List Lexeme) : List Lexeme :=
  if acc = [] then ls else .atom acc.reverse :: ls

/-- The lexemes of a line; `;` starts a comment. None where a character is none of the syntax's (a minus sign, so that
"any negative number" is refused). `acc` is the atom being read, in reverse. -/
def lexLine : List Char → List Char → Option (List Lexeme)
  | acc, [] => some (flushAtom acc [])
  | acc, c :: cs =>
    if c = ';' then some (flushAtom acc [])
    else if c.isAlphanum then lexLine (c :: acc) cs
    else if c.isWhitespace then (lexLine [] cs).map (flushAtom acc)
    else if c = ',' then (lexLine [] cs).map fun ls => flushAtom acc (.comma :: ls)
    else if c = '=' then (lexLine [] cs).map fun ls => flushAtom acc (.equals :: ls)
    else none

/-- The value of a digit in a base up to 16; none where the character is no digit of it. -/
def digitValue (base : Nat) (c : Char) : Option Nat :=
  let v :=
    if c.isDigit then c.toNat - '0'.toNat
    else if 'a' ≤ c ∧ c ≤ 'f' then c.toNat - 'a'.toNat + 10
    else if 'A' ≤ c ∧ c ≤ 'F' then c.toNat - 'A'.toNat + 10
    else 16
  if v < base then some v else none

/-- The number written by digits, after the value `n` read so far. -/
def digitsValue (base : Nat) : Nat → List Char → Option Nat
  | n, [] => some n
  | n, c :: cs => (digitValue base c).bind fun d => digitsValue base (n * base + d) cs

/-- "numbers decimal or 0x hexadecimal" (R105). -/
def numberValue : List Char → Option Nat
  | [] => none
  | ['0', 'x'] => none
  | '0' :: 'x' :: cs => digitsValue 16 0 cs
  | cs => digitsValue 10 0 cs

/-! ## From lexemes to a command -/

/-- The lower-case names that take a value: the seven fields and the century. -/
inductive OperandName where
  | field (k : TimeField)
  | cent
  deriving DecidableEq, Repr

/-- "the field names `sec`, `min`, `hour`, `wday`, `dom`, `month`, `year`, `cent` are lower case" (R105). -/
def operandName (cs : List Char) : Option OperandName :=
  if cs = "sec".toList then some (.field .sec)
  else if cs = "min".toList then some (.field .min)
  else if cs = "hour".toList then some (.field .hour)
  else if cs = "wday".toList then some (.field .wday)
  else if cs = "dom".toList then some (.field .dom)
  else if cs = "month".toList then some (.field .month)
  else if cs = "year".toList then some (.field .year)
  else if cs = "cent".toList then some .cent
  else none

/-- A number that fits a byte; "the assembler refuses an operand that does not fit its field" (R105). -/
def byteOperand (cs : List Char) : Option Byte :=
  (numberValue cs).bind fun n => if n ≤ 255 then some (BitVec.ofNat 8 n) else none

/-- A number that fits a linear address. -/
def addressOperand (cs : List Char) : Option LinearAddress :=
  (numberValue cs).bind fun n => if n ≤ 65535 then some (BitVec.ofNat 16 n) else none

/-- A list `name=value, name=value, ...`, possibly empty. -/
def assignments : List Lexeme → Option (List (OperandName × Byte))
  | [] => some []
  | [.atom n, .equals, .atom v] =>
    (operandName n).bind fun k => (byteOperand v).map fun b => [(k, b)]
  | .atom n :: .equals :: .atom v :: .comma :: l :: ls =>
    (operandName n).bind fun k => (byteOperand v).bind fun b => (assignments (l :: ls)).map ((k, b) :: ·)
  | _ => none

/-- The value given to a name; none where it has none. -/
def assigned (k : OperandName) (as : List (OperandName × Byte)) : Option Byte :=
  (as.find? fun p => p.1 == k).map (·.2)

/-- The operand of an absent WRALL field: "every other payload byte and bit 0" (R105). -/
def fieldOrZero (as : List (OperandName × Byte)) (k : TimeField) : Byte := (assigned (.field k) as).getD 0

/-- The mask bit of a field that has a value. -/
def presentBit (as : List (OperandName × Byte)) (k : TimeField) : Byte :=
  if (assigned (.field k) as).isSome then BitVec.ofNat 8 (2 ^ fieldIndex k) else 0

/-- WRALL: zero to seven different field names, any order (R105). -/
def assembleWrall (as : List (OperandName × Byte)) : Option Instr :=
  if (as.map (·.1)).Nodup ∧ assigned .cent as = none then
    some
      (.wrall
        (readOrder.foldl (fun x k => x ||| presentBit as k) 0)
        { sec := fieldOrZero as .sec
          min := fieldOrZero as .min
          hour := fieldOrZero as .hour
          wday := fieldOrZero as .wday
          dom := fieldOrZero as .dom
          month := fieldOrZero as .month
          year := fieldOrZero as .year })
  else none

/-- WRCOMP: "the six fields required, any order; `wday` not accepted", the century by default 21 (R105, R106). -/
def assembleWrcomp (as : List (OperandName × Byte)) : Option Instr :=
  if (as.map (·.1)).Nodup ∧ assigned (.field .wday) as = none then
    (assigned (.field .sec) as).bind fun sec =>
    (assigned (.field .min) as).bind fun min =>
    (assigned (.field .hour) as).bind fun hour =>
    (assigned (.field .dom) as).bind fun dom =>
    (assigned (.field .month) as).bind fun month =>
    (assigned (.field .year) as).map fun year =>
      .wrcomp ((assigned .cent as).getD Config.centuryDefault)
        { sec := sec, min := min, hour := hour, wday := 0, dom := dom, month := month, year := year }
  else none

/-- The command of a line's lexemes: an upper-case mnemonic and its operands (R105); `RDALL` with no operand is
`RDALL 21` (R106). -/
def assembleLexemes : List Lexeme → Option Instr
  | .atom m :: ls =>
    if m = "BCDDEC".toList then
      match ls with
      | [.atom b] => (byteOperand b).map .bcddec
      | _ => none
    else if m = "BCDENC".toList then
      match ls with
      | [.atom v] => (byteOperand v).map .bcdenc
      | _ => none
    else if m = "RDALL".toList then
      match ls with
      | [] => some (.rdall Config.centuryDefault)
      | [.atom c] => (byteOperand c).map .rdall
      | _ => none
    else if m = "WRALL".toList then (assignments ls).bind assembleWrall
    else if m = "WRCOMP".toList then (assignments ls).bind assembleWrcomp
    else if m = "WRNOW".toList then if ls = [] then some .wrnow else none
    else if m = "RDTEMP".toList then if ls = [] then some .rdtemp else none
    else if m = "SETADDR".toList then
      match ls with
      | [.atom a] => (addressOperand a).map .setaddr
      | _ => none
    else if m = "MRDB".toList then
      match ls with
      | [.atom a] => (addressOperand a).map .mrdb
      | _ => none
    else if m = "MWRB".toList then
      match ls with
      | [.atom a, .comma, .atom v] => (addressOperand a).bind fun x => (byteOperand v).map (.mwrb x)
      | _ => none
    else none
  | _ => none

/-- What a line assembles to: nothing (blank, or a comment only), a command word, or a refusal. -/
inductive Assembled where
  | blank
  | word (w : CommandWord)
  | refused
  deriving DecidableEq, Repr

/-- The assembler, one line (R105). -/
def assembleLine (line : String) : Assembled :=
  match lexLine [] line.toList with
  | none => .refused
  | some [] => .blank
  | some (l :: ls) =>
    match assembleLexemes (l :: ls) with
    | some i => .word (encode i)
    | none => .refused

end Sys2Proof.Machine
end

