-- ==== Sys2Proof/Safety.lean ====
section
/-! DEFINITION. The terms claims are stated in: the conditions the spec sets on the environment (R226, R244), legal
offsets (R7), the invariant of the state, legal requests (R61 to R64), the operand lists of an assembler line (R105), and
what a reader compares of two states. -/

namespace Sys2Proof.Machine

/-! ## Conditions on the environment -/

/-- The transport can be used: the link is open and the block is its only user (R226, R244). -/
def State.transportReady (s : State) : Prop := s.linkOpen = true ∧ s.soleOwner = true

/-- The seven offsets lie within 0x00 to 0x07 and are all different (R7, decision D7). -/
def legalOffsets (f : FieldBytes) : Prop :=
  (∀ k, (f.get k).toNat ≤ 7) ∧ ∀ j k, f.get j = f.get k → j = k

/-! ## The invariant of the state -/

/-- How many bytes an operation's result is made of. -/
def resultBytes : Instr → Nat
  | .rdall _ => 7
  | .rdtemp => 2
  | .mrdb _ => 1
  | .bcddec _ => 0
  | .bcdenc _ => 0
  | .wrall _ _ => 0
  | .wrcomp _ _ => 0
  | .wrnow => 0
  | .setaddr _ => 0
  | .mwrb _ _ => 0

/-- Whether a step delivers a byte to its operation. -/
def MicroOp.delivers : MicroOp → Bool
  | .readField _ => true
  | .readTempWhole => true
  | .readTempFrac => true
  | .readRaw => true
  | .writeField _ _ => false
  | .sendPointer _ => false
  | .sendData _ _ => false
  | .waitSettle => false

/-- The bytes got and the bytes to come make the operation's result. -/
def bytesAccounted (i : Instr) (got : List Byte) (todo : List MicroOp) : Prop :=
  got.length + (todo.filter MicroOp.delivers).length = resultBytes i

/-- A sequencer position a run can wait at: `IDLE` with the timer stopped (R38), or `BUSY` at a step whose check has
passed, the timer running exactly when that step is the settle wait. -/
def Sequencer.wellPlaced (q : Sequencer) (t : SettleTimer) : Prop :=
  match q with
  | .idle => t = .stopped
  | .busy o =>
    ∃ m rest, o.todo = m :: rest ∧ m.check = none ∧ (t = .running ↔ m = .waitSettle) ∧
      bytesAccounted o.instr o.got o.todo

/-- The invariant: the link is open (R35), the offsets are legal (R7), the sequencer is well placed (R31, R38), and the
two stores are canonical and hold no address their space does not have (R66). -/
structure State.Inv (s : State) : Prop where
  link : s.linkOpen = true
  offsets : legalOffsets s.offsets
  placed : s.seq.wellPlaced s.settle
  clockWf : Memory.wf s.chips.clock
  clockBound : ∀ c ∈ s.chips.clock, c.1 < 256
  memWf : Memory.wf s.chips.mem
  memBound : ∀ c ∈ s.chips.mem, c.1 < 65536

/-! ## Legal requests -/

/-- The requests the block makes (R61 to R64, R151, R161): reads of the nine register offsets, in-range BCD writes of
the seven time registers, and pointer writes, data writes and raw reads of the memory device. -/
def State.legalRequest (s : State) : Request → Prop
  | .wrreg dev reg val =>
    dev = s.clockAddr ∧
      ∃ k, reg = s.offsets.get k ∧ bcdValid val = true ∧ fieldLo k ≤ (bcdDecode val).toNat ∧
        (bcdDecode val).toNat ≤ fieldHi k
  | .rdreg dev reg =>
    dev = s.clockAddr ∧ ((∃ k, reg = s.offsets.get k) ∨ reg = tempWholeOffset ∨ reg = tempFracOffset)
  | .rdraw dev => dev = s.memAddr
  | .wrblk dev _ _ _ => dev = s.memAddr

/-- The request that reads the register of field k. -/
def fieldReadRequest (s : State) (k : TimeField) : Request := .rdreg s.clockAddr (s.offsets.get k)

/-- The request that writes the field values `f`'s value of field k to its register (R143). -/
def fieldWriteRequest (s : State) (f : FieldBytes) (k : TimeField) : Request :=
  .wrreg s.clockAddr (s.offsets.get k) (bcdEncode (f.get k))

/-- The clock registers after the fields `ks` have been written successfully, in that order (R149, R150). -/
def clockAfterWrites (s : State) (f : FieldBytes) (ks : List TimeField) : Memory :=
  ks.foldl (fun c k => Memory.write c (s.offsets.get k).toNat (bcdEncode (f.get k))) s.chips.clock

/-- The block write of the two pointer bytes (R192). -/
def pointerRequest (s : State) (a : LinearAddress) : Request := .wrblk s.memAddr (addrHi a) (addrLo a) none

/-- The block write of a data byte (R195). -/
def dataRequest (s : State) (a : LinearAddress) (v : Byte) : Request :=
  .wrblk s.memAddr (addrHi a) (addrLo a) (some v)

/-! ## The calendar a weekday is counted on -/

/-- A leap year of the Gregorian calendar, extended to all years (R154). -/
def leapYear (Y : Int) : Prop := Y % 4 = 0 ∧ (Y % 100 ≠ 0 ∨ Y % 400 = 0)

/-- `D` is the last day of the month `M`, 1 to 12, of the year `Y` in that calendar (R154). -/
def lastDayOfMonth (Y M D : Int) : Prop :=
  (D = 31 ∧ (M = 1 ∨ M = 3 ∨ M = 5 ∨ M = 7 ∨ M = 8 ∨ M = 10 ∨ M = 12)) ∨
    (D = 30 ∧ (M = 4 ∨ M = 6 ∨ M = 9 ∨ M = 11)) ∨ (M = 2 ∧ (D = 29 ∧ leapYear Y ∨ D = 28 ∧ ¬ leapYear Y))

/-! ## The operand lists of an assembler line -/

/-- The name an assembler line writes, one of the eight lower-case names of R105. -/
def OperandName.text : OperandName → List Char
  | .field .sec => "sec".toList
  | .field .min => "min".toList
  | .field .hour => "hour".toList
  | .field .wday => "wday".toList
  | .field .dom => "dom".toList
  | .field .month => "month".toList
  | .field .year => "year".toList
  | .cent => "cent".toList

/-- The lexemes of `name=value, name=value, ...` (R105). -/
def assignmentLexemes : List (OperandName × List Char) → List Lexeme
  | [] => []
  | [(n, v)] => [.atom n.text, .equals, .atom v]
  | (n, v) :: p :: ps => .atom n.text :: .equals :: .atom v :: .comma :: assignmentLexemes (p :: ps)

/-! ## Comparing states -/

/-- The state without the operation's own name in a `BUSY` sequencer, for comparing two operations that "delegate"
(R107). -/
def State.withBusyInstr (i : Instr) (s : State) : State :=
  match s.seq with
  | .idle => s
  | .busy o => { s with seq := .busy { o with instr := i } }

/-- `s` with other history: what the block sent earlier, what the chips hold, the time that has passed (R32, R162). -/
def State.withHistory (s : State) (c : Chips) (rq : List Request) (rs : List Response) (ms : Nat) : State :=
  { s with chips := c, requests := rq, responses := rs, elapsedMs := ms }

/-- `s` with further answers and further settle times from the environment. -/
def State.withMore (s : State) (as : List TransportResponse) (es : List Nat) : State :=
  { s with answers := s.answers ++ as, settleExtras := s.settleExtras ++ es }

/-- The parts of the state that are fixed at construction (R33 to R35, R7). -/
def State.sameConfiguration (s t : State) : Prop :=
  t.clockAddr = s.clockAddr ∧ t.memAddr = s.memAddr ∧ t.linkOpen = s.linkOpen ∧ t.offsets = s.offsets ∧
    t.memCapacity = s.memCapacity

/-- A response whose members agree with its status (R103). -/
def Response.consistent (r : Response) : Prop :=
  (r.st ≠ .transportError → r.te = 0) ∧ (r.st = .ok ↔ r.res.isSome = true) ∧ (r.st = .ok → r.ef = none) ∧
    (r.st = .rangeError → r.ef.isSome = true) ∧ (r.st = .illegalCommand → r.ef = none)

end Sys2Proof.Machine
end

