-- ==== Sys2Proof/Certificates/Slice0/Obligations.lean ====
section
/-! DEFINITION. The statements for the provers, in the order of the spec's files. Each docstring names the rule it
formalises; where a rule is marked as a decision of the spec, the statement's basis is 'derived'. -/

open Sys2Proof Sys2Proof.Machine

/-! ## Decoding and the command port (spec/30_encoding.md) -/

/-- O1. Words written out from the format tables of R91 to R94, one for each operation, decode to their operations. -/
def Obligations.TableWordsDecodeToTheirOperations : Prop :=
  decodeTableWord 72 0x010000000000000059 = some (.bcddec 0x59) ∧
  decodeTableWord 72 0x02000000000000003B = some (.bcdenc 59) ∧
  decodeTableWord 72 0x100000000000000015 = some (.rdall 21) ∧
  decodeTableWord 72 0x117F1A0B0A02112605 =
    some (.wrall 0x7F { sec := 5, min := 38, hour := 17, wday := 2, dom := 10, month := 11, year := 26 }) ∧
  decodeTableWord 72 0x12151A0B0A00112605 =
    some (.wrcomp 21 { sec := 5, min := 38, hour := 17, wday := 0, dom := 10, month := 11, year := 26 }) ∧
  decodeTableWord 72 0x130000000000000000 = some .wrnow ∧
  decodeTableWord 72 0x140000000000000000 = some .rdtemp ∧
  decodeTableWord 72 0x20000000000000012C = some (.setaddr 300) ∧
  decodeTableWord 72 0x210000000000000005 = some (.mrdb 5) ∧
  decodeTableWord 72 0x220000000000C80005 = some (.mwrb 5 200)

/-- O2. Decoding the word of a well-formed operation gives the operation back, with every operand at every value
(R91 to R96). -/
def Obligations.DecodeOfEncodeIsTheOperation : Prop :=
  ∀ i : Instr, i.wellFormed = true → decode (encode i) = .command i

/-- O3. Every one of the 2^72 words is the word of exactly the operation it decodes to, or is illegal and the word of
no operation (R97 to R99). -/
def Obligations.EveryWordIsOneOperationOrIllegal : Prop :=
  ∀ w : CommandWord,
    (∃ i, decode w = .command i ∧ i.wellFormed = true ∧ encode i = w) ∨
    (∃ e, decode w = .illegal e ∧ ∀ i : Instr, i.wellFormed = true → encode i ≠ w)

/-- O4. When the sequencer is `IDLE`, `RST` is not asserted and the host presents the word of an operation, a step is
`exec` of that operation, the word taken from the port (R101, R102). -/
def Obligations.StepRunsThePresentedOperation : Prop :=
  ∀ (s : State) (w : CommandWord) (rest : List HostEvent) (i : Instr),
    s.rst = none → s.seq = .idle → s.hostQueue = .command w :: rest → decode w = .command i →
    step s = exec i { s with hostQueue := rest }

/-- O5. An illegal word is answered at once with `IllegalCommand`, `TE` 0, `EF` 7 and no result, and changes nothing
else: no request, no timer (R97, R98, R214). -/
def Obligations.IllegalWordIsAnsweredWithoutEffect : Prop :=
  ∀ (s : State) (w : CommandWord) (rest : List HostEvent) (e : DecodeError),
    s.rst = none → s.seq = .idle → s.hostQueue = .command w :: rest → decode w = .illegal e →
    step s = .next
      { s with
        hostQueue := rest
        responses := s.responses ++ [{ st := .illegalCommand, te := 0, ef := none, res := none }] }

/-- O6. An operation is answered with exactly one response, after which the sequencer is `IDLE`; until then it is
`BUSY` with that operation and there is no response. So it is for the step that accepts it and for every step that goes
on with it (R31, R101). -/
def Obligations.OneResponsePerAcceptedCommand : Prop :=
  (∀ (i : Instr) (s t : State), exec i s = .next t →
    (t.seq = .idle ∧ ∃ r, t.responses = s.responses ++ [r]) ∨
    (∃ o, t.seq = .busy o ∧ o.instr = i ∧ t.responses = s.responses)) ∧
  (∀ (s t : State) (o : Operation), s.rst = none → s.seq = .busy o → step s = .next t →
    (t.seq = .idle ∧ ∃ r, t.responses = s.responses ++ [r]) ∨
    (∃ o', t.seq = .busy o' ∧ o'.instr = o.instr ∧ t.responses = s.responses))

/-- O7. A command presented while the sequencer is `BUSY` waits: it is neither lost nor executed early (R101). -/
def Obligations.PresentedCommandWaitsWhileBusy : Prop :=
  ∀ (s t : State) (o : Operation), s.rst = none → s.seq = .busy o → step s = .next t → t.hostQueue = s.hostQueue

/-- O8. Every response of every step has members that agree with its status: `TE` is 0 but for `TransportError`, there
is a result exactly when the status is `OK`, no field is named with `OK` or `IllegalCommand`, and one is named with
`RangeError` (R103). -/
def Obligations.ResponseMembersAgreeWithStatus : Prop :=
  ∀ s t : State, step s = .next t →
    t.responses = s.responses ∨ ∃ r, t.responses = s.responses ++ [r] ∧ Response.consistent r

/-- O9. The assembler's table (R105, R106, the spec's decision D28; lexical details: log entry 20). Every line it accepts
gives a word the decoder accepts. Each syntax form gives its operation: whole lines are written out, with some that are
refused, and below the level of characters, where a line is a list of lexemes, it is so for every operand. There WRALL with
any list of different field names sets the mask bit and the byte of each name and no other, WRCOMP with the six names
has their bytes, weekday 0 and the century given or 21, and the order of the names does not matter. A byte in decimal is
read as its value. What is refused in general: O57. -/
def Obligations.AssembledLinesAreLegalWords : Prop :=
  (∀ (line : String) (w : CommandWord), assembleLine line = .word w →
    ∃ i, decode w = .command i ∧ i.wellFormed = true ∧ w = encode i) ∧
  (assembleLine "BCDDEC 0x59" = .word (encode (.bcddec 0x59)) ∧
    assembleLine "BCDENC 59 ; a comment" = .word (encode (.bcdenc 59)) ∧
    assembleLine "RDALL 255" = .word (encode (.rdall 255)) ∧ assembleLine "RDALL" = .word (encode (.rdall 21)) ∧
    assembleLine "RDALL 21" = .word (encode (.rdall 21)) ∧
    assembleLine "WRALL" =
      .word (encode (.wrall 0 { sec := 0, min := 0, hour := 0, wday := 0, dom := 0, month := 0, year := 0 })) ∧
    assembleLine "WRALL hour=99, sec=30" =
      .word (encode (.wrall 5 { sec := 30, min := 0, hour := 99, wday := 0, dom := 0, month := 0, year := 0 })) ∧
    assembleLine "WRALL sec=5, min=38, hour=17, wday=2, dom=10, month=11, year=26" =
      .word (encode (.wrall 0x7F { sec := 5, min := 38, hour := 17, wday := 2, dom := 10, month := 11, year := 26 })) ∧
    assembleLine "WRCOMP sec=1, min=2, hour=3, dom=4, month=5, year=6, cent=20" =
      .word (encode (.wrcomp 20 { sec := 1, min := 2, hour := 3, wday := 0, dom := 4, month := 5, year := 6 })) ∧
    assembleLine "WRCOMP year=6, month=5, dom=4, hour=3, min=2, sec=1" =
      .word (encode (.wrcomp 21 { sec := 1, min := 2, hour := 3, wday := 0, dom := 4, month := 5, year := 6 })) ∧
    assembleLine "WRNOW" = .word (encode .wrnow) ∧ assembleLine "RDTEMP" = .word (encode .rdtemp) ∧
    assembleLine "SETADDR 300" = .word (encode (.setaddr 300)) ∧
    assembleLine "MRDB 0xFFFF" = .word (encode (.mrdb 65535)) ∧
    assembleLine "MWRB 5, 200" = .word (encode (.mwrb 5 200))) ∧
  (assembleLine "BCDDEC 256" = .refused ∧ assembleLine "RDALL 256" = .refused ∧
    assembleLine "WRALL sec=256" = .refused ∧ assembleLine "MRDB 65536" = .refused ∧
    assembleLine "MWRB 5, 256" = .refused ∧ assembleLine "BCDENC -1" = .refused ∧
    assembleLine "WRCOMP sec=1, min=2, hour=3, wday=1, dom=4, month=5, year=6" = .refused ∧
    assembleLine "WRCOMP sec=1, min=2, hour=3, dom=4, month=5" = .refused) ∧
  (∀ (cs : List Char) (b : Byte), byteOperand cs = some b →
    assembleLexemes [.atom "BCDDEC".toList, .atom cs] = some (.bcddec b) ∧
    assembleLexemes [.atom "BCDENC".toList, .atom cs] = some (.bcdenc b) ∧
    assembleLexemes [.atom "RDALL".toList, .atom cs] = some (.rdall b)) ∧
  (∀ (cs ds : List Char) (a : LinearAddress) (b : Byte), addressOperand cs = some a → byteOperand ds = some b →
    assembleLexemes [.atom "SETADDR".toList, .atom cs] = some (.setaddr a) ∧
    assembleLexemes [.atom "MRDB".toList, .atom cs] = some (.mrdb a) ∧
    assembleLexemes [.atom "MWRB".toList, .atom cs, .comma, .atom ds] = some (.mwrb a b)) ∧
  (assembleLexemes [.atom "RDALL".toList] = some (.rdall 21) ∧ assembleLexemes [.atom "WRNOW".toList] = some .wrnow ∧
    assembleLexemes [.atom "RDTEMP".toList] = some .rdtemp) ∧
  (∀ as : List (OperandName × List Char), (as.map (·.1)).Nodup → .cent ∉ as.map (·.1) →
    (∀ p ∈ as, (byteOperand p.2).isSome = true) →
    ∃ x f, assembleLexemes (.atom "WRALL".toList :: assignmentLexemes as) = some (.wrall x f) ∧
      x.getLsbD 7 = false ∧
      ∀ k, (x.getLsbD (fieldIndex k) = true ↔ .field k ∈ as.map (·.1)) ∧
        (∀ cs, (.field k, cs) ∈ as → byteOperand cs = some (f.get k)) ∧ (.field k ∉ as.map (·.1) → f.get k = 0)) ∧
  (∀ as : List (OperandName × List Char), (as.map (·.1)).Nodup → .field .wday ∉ as.map (·.1) →
    (∀ k, k ≠ .wday → .field k ∈ as.map (·.1)) → (∀ p ∈ as, (byteOperand p.2).isSome = true) →
    ∃ c f, assembleLexemes (.atom "WRCOMP".toList :: assignmentLexemes as) = some (.wrcomp c f) ∧ f.wday = 0 ∧
      (∀ k cs, (.field k, cs) ∈ as → byteOperand cs = some (f.get k)) ∧
      (∀ cs, (.cent, cs) ∈ as → byteOperand cs = some c) ∧ (.cent ∉ as.map (·.1) → c = 21)) ∧
  (∀ as bs : List (OperandName × List Char), as.Perm bs →
    assembleLexemes (.atom "WRALL".toList :: assignmentLexemes as) =
      assembleLexemes (.atom "WRALL".toList :: assignmentLexemes bs) ∧
    assembleLexemes (.atom "WRCOMP".toList :: assignmentLexemes as) =
      assembleLexemes (.atom "WRCOMP".toList :: assignmentLexemes bs)) ∧
  (∀ b : Byte, byteOperand (Nat.toDigits 10 b.toNat) = some b)

/-! ## The codec (spec/40_bcd_codec.md) -/

/-- O10. Round-trip laws (R126): decode of encode is the number, for 0 to 99; encode of decode is the byte, for every
byte whose nibbles are at most 9. -/
def Obligations.BcdRoundTripLaws : Prop :=
  (∀ n : Byte, n.toNat ≤ 99 → bcdValid (bcdEncode n) = true ∧ bcdDecode (bcdEncode n) = n) ∧
  (∀ b : Byte, b.toNat / 16 ≤ 9 → b.toNat % 16 ≤ 9 → bcdValid b = true ∧ bcdEncode (bcdDecode b) = b)

/-- O11. BCDDEC (R124, whose rejection of a bad nibble is the spec's decision D10): 10 times the high nibble plus the
low nibble when both are at most 9, `UndefinedDecodeError` with no field otherwise; nothing else changes. -/
def Obligations.BcddecAnswersTheNumberOrRejects : Prop :=
  ∀ (b : Byte) (s : State),
    (b.toNat / 16 ≤ 9 → b.toNat % 16 ≤ 9 →
      exec (.bcddec b) s = .next
        { s with
          seq := .idle
          responses := s.responses ++
            [{ st := .ok, te := 0, ef := none,
               res := some (.val (BitVec.ofNat 8 (10 * (b.toNat / 16) + b.toNat % 16))) }] }) ∧
    (9 < b.toNat / 16 ∨ 9 < b.toNat % 16 →
      exec (.bcddec b) s = .next
        { s with
          seq := .idle
          responses := s.responses ++ [{ st := .undefinedDecodeError, te := 0, ef := none, res := none }] })

/-- O12. BCDENC (R125, whose any-byte result above 99 is the spec's decision D11): always `OK`; for 0 to 99 the byte
with the tens in the high nibble and the units in the low one; above 99 some byte, of which nothing is said (log entry
5). Nothing else changes but the count of free values. -/
def Obligations.BcdencAnswersThePackedByte : Prop :=
  ∀ (v : Byte) (s : State),
    (v.toNat ≤ 99 →
      exec (.bcdenc v) s = .next
        { s with
          seq := .idle
          responses := s.responses ++
            [{ st := .ok, te := 0, ef := none,
               res := some (.bcd (BitVec.ofNat 8 (16 * (v.toNat / 10) + v.toNat % 10))) }] }) ∧
    (99 < v.toNat → ∃ b : Byte,
      exec (.bcdenc v) s = .next
        { s with
          seq := .idle
          freeDraws := s.freeDraws + 1
          responses := s.responses ++ [{ st := .ok, te := 0, ef := none, res := some (.bcd b) }] })

/-! ## The Clock Register Model (spec/41_clock_register_model.md) -/

/-- O13. The hours sentinel (R141): 0x64 decodes to 0; the remap applies to the hours field only and only to that whole
byte (0x24 and 0xE4 decode to 24); the block never writes it to the hours register. -/
def Obligations.HoursSentinelDecodesToZero : Prop :=
  fieldDecode .hour 0x64 = some 0 ∧
  fieldDecode .hour 0x24 = some 24 ∧ fieldDecode .hour 0xE4 = some 24 ∧
  (∀ raw : Byte, raw ≠ 0x64 →
    fieldDecode .hour raw =
      if bcdValid (raw &&& 0x3F) then some (bcdDecode (raw &&& 0x3F)) else none) ∧
  (∀ (k : TimeField) (raw : Byte), k ≠ .hour →
    fieldDecode k raw =
      if bcdValid (raw &&& fieldMask k) then some (bcdDecode (raw &&& fieldMask k)) else none) ∧
  (∀ v : Byte, fieldInRange .hour v = true → bcdEncode v ≠ 0x64)

/-- O14. What the masks strip on a read (R142): bit 7 of the seconds byte, bits 7 and 6 of the hours byte (the sentinel
apart), nothing of the other five: the value is decoded from the bits that are left, all of them. And the values a read
can give: seconds 0 to 79, hours 0 to 39, others 0 to 99 (R140, R148). -/
def Obligations.FieldReadStripsReservedBits : Prop :=
  (∀ raw : Byte, fieldDecode .sec raw = fieldDecode .sec (raw &&& 0x7F) ∧
    fieldDecode .sec raw = if bcdValid (raw &&& 0x7F) then some (bcdDecode (raw &&& 0x7F)) else none) ∧
  (∀ raw : Byte, raw ≠ 0x64 → fieldDecode .hour raw = fieldDecode .hour (raw &&& 0x3F) ∧
    fieldDecode .hour raw = if bcdValid (raw &&& 0x3F) then some (bcdDecode (raw &&& 0x3F)) else none) ∧
  (∀ (k : TimeField) (raw : Byte), k ≠ .sec → k ≠ .hour →
    fieldDecode k raw = if bcdValid raw then some (bcdDecode raw) else none) ∧
  (∀ (raw v : Byte), fieldDecode .sec raw = some v → v.toNat ≤ 79) ∧
  (∀ (raw v : Byte), fieldDecode .hour raw = some v → v.toNat ≤ 39) ∧
  (∀ (k : TimeField) (raw v : Byte), fieldDecode k raw = some v → v.toNat ≤ 99)

/-- O15. The write pipeline of one field (R143): a value outside the inclusive bounds raises `RangeError` for the field
with no request; a value inside makes exactly one register write of its BCD byte, whose failure is a `TransportError`
with the transport's cause. That after a failed write that register's byte, and no other, is unknown is R65 (the spec's
decision D31) as log entry 7 reads it (deduced). -/
def Obligations.FieldWriteChecksThenWritesOnce : Prop :=
  (∀ v : Byte, (fieldInRange .sec v = true ↔ v.toNat ≤ 59) ∧ (fieldInRange .min v = true ↔ v.toNat ≤ 59) ∧
    (fieldInRange .hour v = true ↔ v.toNat ≤ 23) ∧ (fieldInRange .wday v = true ↔ 1 ≤ v.toNat ∧ v.toNat ≤ 7) ∧
    (fieldInRange .dom v = true ↔ 1 ≤ v.toNat ∧ v.toNat ≤ 31) ∧
    (fieldInRange .month v = true ↔ 1 ≤ v.toNat ∧ v.toNat ≤ 12) ∧ (fieldInRange .year v = true ↔ v.toNat ≤ 99)) ∧
  (∀ (k : TimeField) (v : Byte) (s : State), fieldInRange k v = false →
    performStep (.writeField k v) false s = .failed s (.range k)) ∧
  (∀ (k : TimeField) (v : Byte) (s : State) (a : TransportResponse) (rest : List TransportResponse),
    fieldInRange k v = true → s.transportReady → s.answers = a :: rest →
    performStep (.writeField k v) false s =
      if a.ok then
        .done
          { s with
            answers := rest
            requests := s.requests ++ [.wrreg s.clockAddr (s.offsets.get k) (bcdEncode v)]
            chips := { s.chips with
              clock := Memory.write s.chips.clock (s.offsets.get k).toNat (bcdEncode v) } } []
      else
        .failed
          { s with
            answers := rest
            requests := s.requests ++ [.wrreg s.clockAddr (s.offsets.get k) (bcdEncode v)]
            chips := { s.chips with
              clock := Memory.forget s.chips.clock (s.offsets.get k).toNat } } (.transport a.cause (some k)))

/-- O16. RDALL completes (R145): when every read succeeds with a byte that decodes, it makes the seven reads in field
order and answers the seven values, the century and the full year (century - 1) * 100 + year (R147; the read order is
the spec's decision D12, the formula its decision D15); nothing else changes. -/
def Obligations.RdallAnswersTheDecodedFields : Prop :=
  ∀ (s : State) (c : Byte) (a : TimeField → TransportResponse) (v : TimeField → Byte)
    (rest : List TransportResponse),
    s.transportReady → (∀ k, (a k).ok = true) → (∀ k, fieldDecode k (a k).data = some (v k)) →
    s.answers = [a .sec, a .min, a .hour, a .wday, a .dom, a .month, a .year] ++ rest →
    exec (.rdall c) s = .next
      { s with
        seq := .idle
        answers := rest
        requests := s.requests ++
          [TimeField.sec, .min, .hour, .wday, .dom, .month, .year].map (fieldReadRequest s)
        responses := s.responses ++
          [{ st := .ok, te := 0, ef := none,
             res := some (.dateTime
               { fields :=
                   { sec := v .sec, min := v .min, hour := v .hour, wday := v .wday, dom := v .dom,
                     month := v .month, year := v .year }
                 cent := c
                 fullYear := BitVec.ofInt 16 (((c.toNat : Int) - 1) * 100 + ((v .year).toNat : Int)) }) }] }

/-- O17. RDALL is all or nothing (R146; its reach to decode errors is the spec's decision D10; that "first" is counted in
the order k = 0 to 6, each byte decoded before the next read, is its decision D12, log entry 12): at the first field
whose read fails, or whose byte does not decode, it answers the error of that field with no result and reads no further
field; nothing else changes. -/
def Obligations.RdallStopsAtTheFirstBadField : Prop :=
  ∀ (s : State) (c : Byte) (pre post : List TimeField) (k : TimeField) (a : TimeField → TransportResponse)
    (x : TransportResponse) (rest : List TransportResponse),
    s.transportReady → [TimeField.sec, .min, .hour, .wday, .dom, .month, .year] = pre ++ k :: post →
    (∀ j ∈ pre, (a j).ok = true ∧ (fieldDecode j (a j).data).isSome = true) →
    s.answers = pre.map a ++ x :: rest →
    (x.ok = false →
      exec (.rdall c) s = .next
        { s with
          seq := .idle
          answers := rest
          requests := s.requests ++ (pre ++ [k]).map (fieldReadRequest s)
          responses := s.responses ++ [{ st := .transportError, te := x.cause, ef := some k, res := none }] }) ∧
    (x.ok = true → fieldDecode k x.data = none →
      exec (.rdall c) s = .next
        { s with
          seq := .idle
          answers := rest
          requests := s.requests ++ (pre ++ [k]).map (fieldReadRequest s)
          responses := s.responses ++ [{ st := .undefinedDecodeError, te := 0, ef := some k, res := none }] })

/-- O18. The full year is exact in 16 bits signed, from -100 to 25499 (R147, the spec's decision D15). -/
def Obligations.FullYearFitsSixteenBits : Prop :=
  ∀ c y : Byte, y.toNat ≤ 99 →
    -100 ≤ fullYear c y ∧ fullYear c y ≤ 25499 ∧ (BitVec.ofInt 16 (fullYear c y)).toInt = fullYear c y

/-- O19. WRALL completes (R149): when every present field is in range and every write succeeds, it writes the BCD byte
of each present field once, in the order seconds, minutes, hours, year, month, day-of-month, weekday (R144), and answers
`OK` with an empty result; absent fields' bytes have no effect and nothing else changes. -/
def Obligations.WrallWritesThePresentFields : Prop :=
  ∀ (s : State) (x : Byte) (f : FieldBytes) (a : TimeField → TransportResponse) (rest : List TransportResponse)
    (ks : List TimeField),
    s.transportReady →
    ks = [TimeField.sec, .min, .hour, .year, .month, .dom, .wday].filter (fun k => x.getLsbD (fieldIndex k)) →
    (∀ k ∈ ks, fieldLo k ≤ (f.get k).toNat ∧ (f.get k).toNat ≤ fieldHi k ∧ (a k).ok = true) →
    s.answers = ks.map a ++ rest →
    exec (.wrall x f) s = .next
      { s with
        seq := .idle
        answers := rest
        requests := s.requests ++ ks.map (fieldWriteRequest s f)
        chips := { s.chips with clock := clockAfterWrites s f ks }
        responses := s.responses ++ [{ st := .ok, te := 0, ef := none, res := some .empty }] }

/-- O20. No rollback (R150; that later fields are left alone is the spec's decision D14): at the first present field in
the write order whose value is out of range, or whose write fails, WRALL answers the error of that field; the fields
before it have been written and stay written, a field out of range has made no request, a field whose write failed has
either byte (R65, its decision D31; that no other byte is in doubt is log entry 7, deduced), and no later field is
touched. -/
def Obligations.WrallErrorKeepsEarlierWrites : Prop :=
  ∀ (s : State) (x : Byte) (f : FieldBytes) (a : TimeField → TransportResponse) (pre post : List TimeField)
    (k : TimeField),
    s.transportReady →
    [TimeField.sec, .min, .hour, .year, .month, .dom, .wday].filter (fun k => x.getLsbD (fieldIndex k)) =
      pre ++ k :: post →
    (∀ j ∈ pre, fieldLo j ≤ (f.get j).toNat ∧ (f.get j).toNat ≤ fieldHi j ∧ (a j).ok = true) →
    (∀ rest, ((f.get k).toNat < fieldLo k ∨ fieldHi k < (f.get k).toNat) → s.answers = pre.map a ++ rest →
      exec (.wrall x f) s = .next
        { s with
          seq := .idle
          answers := rest
          requests := s.requests ++ pre.map (fieldWriteRequest s f)
          chips := { s.chips with clock := clockAfterWrites s f pre }
          responses := s.responses ++ [{ st := .rangeError, te := 0, ef := some k, res := none }] }) ∧
    (∀ y rest, fieldLo k ≤ (f.get k).toNat → (f.get k).toNat ≤ fieldHi k → y.ok = false →
      s.answers = pre.map a ++ y :: rest →
      exec (.wrall x f) s = .next
        { s with
          seq := .idle
          answers := rest
          requests := s.requests ++ (pre ++ [k]).map (fieldWriteRequest s f)
          chips := { s.chips with
            clock := Memory.forget (clockAfterWrites s f pre) (s.offsets.get k).toNat }
          responses := s.responses ++ [{ st := .transportError, te := y.cause, ef := some k, res := none }] })

/-- O21. What a WRALL that completes leaves in the clock registers, read byte by byte, the offsets being legal (R7):
each present field's register holds the BCD byte of its value, and every other register reads as before ("Fields absent
from the input are left untouched on the chip", R149), a failed write included (log entry 7, deduced). -/
def Obligations.WrallLeavesOtherRegistersUntouched : Prop :=
  ∀ (s t : State) (x : Byte) (f : FieldBytes), legalOffsets s.offsets → exec (.wrall x f) s = .next t →
    (∀ r : Nat, (∀ k, x.getLsbD (fieldIndex k) = true → r ≠ (s.offsets.get k).toNat) →
      Memory.read t.chips.clock r = Memory.read s.chips.clock r) ∧
    (t.responses = s.responses ++ [{ st := .ok, te := 0, ef := none, res := some .empty }] →
      ∀ k, x.getLsbD (fieldIndex k) = true →
        Memory.read t.chips.clock (s.offsets.get k).toNat = some (bcdEncode (f.get k)))

/-- O22. WRCOMP is WRALL with all seven fields present and the weekday computed from the date (R152; the weekday formula
is the spec's decision D16, ignoring `P3` its decision D17): the same next state, or the same refusal, but for the name
of the operation while it is `BUSY`. -/
def Obligations.WrcompIsWrallWithComputedWeekday : Prop :=
  ∀ (s : State) (c : Byte) (f g : FieldBytes),
    g = { f with
      wday := BitVec.ofInt 8
        (isoWeekday (((c.toNat : Int) - 1) * 100 + (f.year.toNat : Int)) f.month.toNat f.dom.toNat) } →
    (∀ t, exec (.wrcomp c f) s = .next t → exec (.wrall 0x7F g) s = .next (t.withBusyInstr (.wrall 0x7F g))) ∧
    (∀ r, exec (.wrcomp c f) s = .refused r ↔ exec (.wrall 0x7F g) s = .refused r)

/-- O23. WRCOMP completes (R152): with the six copied fields in range and seven successful writes it writes all seven
registers in the write order, the weekday computed and never out of range, and answers `OK`; nothing else changes. -/
def Obligations.WrcompWritesAllSevenFields : Prop :=
  ∀ (s : State) (c : Byte) (f g : FieldBytes) (a : TimeField → TransportResponse) (rest : List TransportResponse),
    s.transportReady →
    g = { f with
      wday := BitVec.ofInt 8
        (isoWeekday (((c.toNat : Int) - 1) * 100 + (f.year.toNat : Int)) f.month.toNat f.dom.toNat) } →
    (∀ k, k ≠ .wday → fieldLo k ≤ (f.get k).toNat ∧ (f.get k).toNat ≤ fieldHi k) → (∀ k, (a k).ok = true) →
    s.answers = [a .sec, a .min, a .hour, a .year, a .month, a .dom, a .wday] ++ rest →
    exec (.wrcomp c f) s = .next
      { s with
        seq := .idle
        answers := rest
        requests := s.requests ++
          [TimeField.sec, .min, .hour, .year, .month, .dom, .wday].map (fieldWriteRequest s g)
        chips := { s.chips with
          clock := clockAfterWrites s g [TimeField.sec, .min, .hour, .year, .month, .dom, .wday] }
        responses := s.responses ++ [{ st := .ok, te := 0, ef := none, res := some .empty }] }

/-- O24. `iso_weekday` (R154) is the weekday of the Gregorian calendar extended to all years, Monday = 1 to Sunday = 7
(the spec's decision D16; log entry 13): 1 January 2000 is a Saturday, the first of a month is the weekday after the last
of the month before it, in common and leap years and from December to January, and so is the next day number within a
month or past its end; always 1 to 7, and the calendar repeats after 400 years. -/
def Obligations.IsoWeekdayIsACalendarWeekday : Prop :=
  isoWeekday 2000 1 1 = 6 ∧
  (∀ Y M D : Int,
    1 ≤ isoWeekday Y M D ∧ isoWeekday Y M D ≤ 7 ∧
    isoWeekday Y M (D + 1) = (if isoWeekday Y M D = 7 then 1 else isoWeekday Y M D + 1) ∧
    isoWeekday (Y + 400) M D = isoWeekday Y M D) ∧
  (∀ Y M D : Int, lastDayOfMonth Y M D → M ≠ 12 →
    isoWeekday Y (M + 1) 1 = (if isoWeekday Y M D = 7 then 1 else isoWeekday Y M D + 1)) ∧
  (∀ Y : Int, isoWeekday (Y + 1) 1 1 = (if isoWeekday Y 12 31 = 7 then 1 else isoWeekday Y 12 31 + 1))

/-- O25. WRNOW is WRCOMP of the host's time (R155, the spec's decision D18): with `HOSTTIME` in the layout of Format F,
the same next state, or the same refusal, but for the name of the operation while it is `BUSY`; and it completes when
WRCOMP's conditions hold of the sampled values, the weekday it writes being that of the spec's decisions D15 and D16 (log
entry 13). -/
def Obligations.WrnowWritesTheSampledHostTime : Prop :=
  (∀ (s : State) (c : Byte) (f : FieldBytes),
    s.hostTime = c ++ f.year ++ f.month ++ f.dom ++ f.wday ++ f.hour ++ f.min ++ f.sec →
    (∀ t, exec (.wrcomp c f) s = .next t → exec .wrnow s = .next (t.withBusyInstr .wrnow)) ∧
    (∀ r, exec .wrnow s = .refused r ↔ exec (.wrcomp c f) s = .refused r)) ∧
  (∀ (s : State) (c : Byte) (f g : FieldBytes) (a : TimeField → TransportResponse) (rest : List TransportResponse),
    s.hostTime = c ++ f.year ++ f.month ++ f.dom ++ f.wday ++ f.hour ++ f.min ++ f.sec →
    s.transportReady →
    g = { f with
      wday := BitVec.ofInt 8
        (isoWeekday (((c.toNat : Int) - 1) * 100 + (f.year.toNat : Int)) f.month.toNat f.dom.toNat) } →
    (∀ k, k ≠ .wday → fieldLo k ≤ (f.get k).toNat ∧ (f.get k).toNat ≤ fieldHi k) → (∀ k, (a k).ok = true) →
    s.answers = [a .sec, a .min, a .hour, a .year, a .month, a .dom, a .wday] ++ rest →
    exec .wrnow s = .next
      { s with
        seq := .idle
        answers := rest
        requests := s.requests ++
          [TimeField.sec, .min, .hour, .year, .month, .dom, .wday].map (fieldWriteRequest s g)
        chips := { s.chips with
          clock := clockAfterWrites s g [TimeField.sec, .min, .hour, .year, .month, .dom, .wday] }
        responses := s.responses ++ [{ st := .ok, te := 0, ef := none, res := some .empty }] })

/-- O26. `HOSTTIME` is sampled once (R156): changing the input while an operation is in progress changes nothing of
what its steps do. -/
def Obligations.HostTimeIsIgnoredWhileBusy : Prop :=
  ∀ (s : State) (o : Operation) (v : BitVec 64), s.rst = none → s.seq = .busy o →
    (∀ t, step s = .next t → step { s with hostTime := v } = .next { t with hostTime := v }) ∧
    (∀ r, step s = .refused r ↔ step { s with hostTime := v } = .refused r)

/-- O27. RDTEMP (R157 to R160; which byte is read first is the spec's decision D8, the unsigned form its decision D9):
two reads, whole degrees at 0x11 and fraction at 0x12, and four times the whole byte plus the top two bits of the
fraction byte; a failed read is a `TransportError` with no field, the second read not made after a failed first.
Nothing else changes. -/
def Obligations.RdtempAnswersQuarterDegrees : Prop :=
  ∀ (s : State) (p : TransportResponse), s.transportReady →
    (∀ q rest, p.ok = true → q.ok = true → s.answers = p :: q :: rest →
      exec .rdtemp s = .next
        { s with
          seq := .idle
          answers := rest
          requests := s.requests ++ [.rdreg s.clockAddr 0x11, .rdreg s.clockAddr 0x12]
          responses := s.responses ++
            [{ st := .ok, te := 0, ef := none,
               res := some (.tempq (BitVec.ofNat 10 (4 * p.data.toNat + q.data.toNat / 64))) }] }) ∧
    (∀ rest, p.ok = false → s.answers = p :: rest →
      exec .rdtemp s = .next
        { s with
          seq := .idle
          answers := rest
          requests := s.requests ++ [.rdreg s.clockAddr 0x11]
          responses := s.responses ++ [{ st := .transportError, te := p.cause, ef := none, res := none }] }) ∧
    (∀ q rest, p.ok = true → q.ok = false → s.answers = p :: q :: rest →
      exec .rdtemp s = .next
        { s with
          seq := .idle
          answers := rest
          requests := s.requests ++ [.rdreg s.clockAddr 0x11, .rdreg s.clockAddr 0x12]
          responses := s.responses ++ [{ st := .transportError, te := q.cause, ef := none, res := none }] })

/-- O28. The temperature is `4 * w + q[7:6]`, unsigned and exact in 10 bits (R159 and R160, the spec's decision D9; log
entry 14), so bits 5 to 0 of the fraction byte are ignored, whatever they hold (R158). -/
def Obligations.TemperatureIgnoresLowFractionBits : Prop :=
  (∀ w q : Byte, (tempQ w q).toNat = 4 * w.toNat + q.toNat / 64) ∧
  (∀ w q r : Byte, q.extractLsb' 6 2 = r.extractLsb' 6 2 → tempQ w q = tempQ w r)

/-! ## The Paged Memory Addressor (spec/42_paged_memory_addressor.md) -/

/-- O29. The address split (R190): high byte `addr div 256`, low byte `addr mod 256`, from which the address comes back;
the document's example and the corners. -/
def Obligations.AddressSplitIsExact : Prop :=
  (∀ a : LinearAddress, (addrHi a).toNat = a.toNat / 256 ∧ (addrLo a).toNat = a.toNat % 256 ∧
    addrHi a = a.extractLsb' 8 8 ∧ addrLo a = a.extractLsb' 0 8 ∧
    256 * (addrHi a).toNat + (addrLo a).toNat = a.toNat ∧ pointerAddress (addrHi a) (addrLo a) = a) ∧
  (addrHi 300 = 1 ∧ addrLo 300 = 44) ∧ (addrHi 0 = 0 ∧ addrLo 0 = 0) ∧ (addrHi 255 = 0 ∧ addrLo 255 = 255) ∧
  (addrHi 256 = 1 ∧ addrLo 256 = 0) ∧ (addrHi 65535 = 255 ∧ addrLo 65535 = 255)

/-- O30. On the bus the high byte goes first, then the low byte, and in a write the data byte is the third (R193). -/
def Obligations.PointerGoesHighByteFirst : Prop :=
  (∀ (s : State) (a : LinearAddress), ((MicroOp.sendPointer a).request s).map (fun r => r.message.blk) =
    some [a.extractLsb' 8 8, a.extractLsb' 0 8]) ∧
  (∀ (s : State) (a : LinearAddress) (v : Byte), ((MicroOp.sendData a v).request s).map (fun r => r.message.blk) =
    some [a.extractLsb' 8 8, a.extractLsb' 0 8, v])

/-- O31. SETADDR (R192): one block write of the two pointer bytes, no settle delay; the device's pointer is then the
address (R198) unless the device may be inside a write cycle, when nothing is known of it (R247; log entry 7). A failed
write is a `TransportError` with no field, the pointer then unknown. Nothing else changes. -/
def Obligations.SetaddrSendsThePointer : Prop :=
  ∀ (s : State) (addr : LinearAddress) (p : TransportResponse) (rest : List TransportResponse),
    s.transportReady → s.answers = p :: rest →
    (p.ok = true → s.chips.writeCycle = false →
      exec (.setaddr addr) s = .next
        { s with
          seq := .idle
          answers := rest
          requests := s.requests ++ [pointerRequest s addr]
          chips := { s.chips with ptr := some addr }
          responses := s.responses ++ [{ st := .ok, te := 0, ef := none, res := some .empty }] }) ∧
    (p.ok = true → s.chips.writeCycle = true →
      exec (.setaddr addr) s = .next
        { s with
          seq := .idle
          answers := rest
          requests := s.requests ++ [pointerRequest s addr]
          chips := { s.chips with ptr := none, mem := [] }
          responses := s.responses ++ [{ st := .ok, te := 0, ef := none, res := some .empty }] }) ∧
    (p.ok = false →
      exec (.setaddr addr) s = .next
        { s with
          seq := .idle
          answers := rest
          requests := s.requests ++ [pointerRequest s addr]
          chips := { s.chips with ptr := none, mem := if s.chips.writeCycle then [] else s.chips.mem }
          responses := s.responses ++ [{ st := .transportError, te := p.cause, ef := none, res := none }] })

/-- O32. MRDB (R194; that the read is not made after a failed pointer write is the spec's decision D30): the pointer
write, then one raw read, whose byte is the result as it is; an error of either request is a `TransportError` with no
field. Besides, the pointer is unknown afterwards (R198), and, where the device may be inside a write cycle, every byte of
the memory is, the pointer write having failed or not (R247; log entry 7, deduced); nothing else changes. -/
def Obligations.MrdbAnswersTheByteRead : Prop :=
  ∀ (s : State) (addr : LinearAddress) (p : TransportResponse), s.transportReady →
    (∀ q rest, p.ok = true → q.ok = true → s.answers = p :: q :: rest →
      exec (.mrdb addr) s = .next
        { s with
          seq := .idle
          answers := rest
          requests := s.requests ++ [pointerRequest s addr, .rdraw s.memAddr]
          chips := { s.chips with ptr := none, mem := if s.chips.writeCycle then [] else s.chips.mem }
          responses := s.responses ++ [{ st := .ok, te := 0, ef := none, res := some (.data q.data) }] }) ∧
    (∀ rest, p.ok = false → s.answers = p :: rest →
      exec (.mrdb addr) s = .next
        { s with
          seq := .idle
          answers := rest
          requests := s.requests ++ [pointerRequest s addr]
          chips := { s.chips with ptr := none, mem := if s.chips.writeCycle then [] else s.chips.mem }
          responses := s.responses ++ [{ st := .transportError, te := p.cause, ef := none, res := none }] }) ∧
    (∀ q rest, p.ok = true → q.ok = false → s.answers = p :: q :: rest →
      exec (.mrdb addr) s = .next
        { s with
          seq := .idle
          answers := rest
          requests := s.requests ++ [pointerRequest s addr, .rdraw s.memAddr]
          chips := { s.chips with ptr := none, mem := if s.chips.writeCycle then [] else s.chips.mem }
          responses := s.responses ++ [{ st := .transportError, te := q.cause, ef := none, res := none }] })

/-- O33. MWRB completes (R195; the timer is the spec's decision D21): one block write of address and data, then the
settle wait of at least 200 ms, then `OK`, the timer `STOPPED` again and the write cycle over. Outside a write cycle and
below the capacity the byte at the address is then known to be the one written and the others as before; inside one, or
at or above the capacity, no byte of the memory is known any more (R247, R68; log entry 7, deduced). The pointer is unknown
(R198); nothing else changes. -/
def Obligations.MwrbWritesThenSettles : Prop :=
  ∀ (s : State) (addr : LinearAddress) (v : Byte) (p : TransportResponse) (rest : List TransportResponse)
    (extra : Nat) (extras : List Nat),
    s.transportReady → p.ok = true → s.answers = p :: rest → s.settleExtras = extra :: extras →
    exec (.mwrb addr v) s = .next
      { s with
        seq := .idle
        settle := .stopped
        answers := rest
        settleExtras := extras
        elapsedMs := s.elapsedMs + (200 + extra)
        requests := s.requests ++ [dataRequest s addr v]
        chips := { s.chips with
          ptr := none
          writeCycle := false
          mem :=
            if s.chips.writeCycle = true ∨ s.memCapacity ≤ addr.toNat then []
            else Memory.write s.chips.mem addr.toNat v }
        responses := s.responses ++ [{ st := .ok, te := 0, ef := none, res := some .empty }] }

/-- O34. MWRB's failed write (R195, the spec's decision D21): `TransportError` at once, the timer not started, no time
passed. Whether the write took effect is not known (R65, its decision D31): the byte, the pointer and the write cycle are
unknown, and inside a write cycle or at or above the capacity every byte of the memory (log entry 7, deduced). -/
def Obligations.MwrbFailureTakesNoSettleDelay : Prop :=
  ∀ (s t : State) (addr : LinearAddress) (v : Byte) (p : TransportResponse) (rest : List TransportResponse),
    s.transportReady → p.ok = false → s.answers = p :: rest → exec (.mwrb addr v) s = .next t →
    t.seq = .idle ∧ t.settle = s.settle ∧ t.settleExtras = s.settleExtras ∧ t.elapsedMs = s.elapsedMs ∧
    t.answers = rest ∧ t.requests = s.requests ++ [dataRequest s addr v] ∧
    t.responses = s.responses ++ [{ st := .transportError, te := p.cause, ef := none, res := none }] ∧
    t.chips =
      { s.chips with
        ptr := none
        writeCycle := true
        mem :=
          if s.chips.writeCycle = true ∨ s.memCapacity ≤ addr.toNat then []
          else Memory.forget s.chips.mem addr.toNat }

/-- O35. MWRB never answers `OK` before `T_SETTLE` has passed (R195, R249, the spec's decision D21), neither in the step
that accepts it nor in one that goes on with it, waiting for the timer or for the transfer's answer: while the timer has
not elapsed it stays `BUSY` with `SETTLE` running and sends nothing. -/
def Obligations.MwrbNeverAnswersBeforeSettle : Prop :=
  (∀ (s t : State) (addr : LinearAddress) (v : Byte), exec (.mwrb addr v) s = .next t →
    t.responses = s.responses ++ [{ st := .ok, te := 0, ef := none, res := some .empty }] →
    s.elapsedMs + 200 ≤ t.elapsedMs) ∧
  (∀ (s t : State) (o : Operation), s.rst = none → s.seq = .busy o → o.todo = [.waitSettle] → step s = .next t →
    t.requests = s.requests ∧
    ((t.seq = .busy o ∧ t.settle = .running ∧ t.responses = s.responses) ∨
      (t.seq = .idle ∧ t.settle = .stopped ∧ s.elapsedMs + 200 ≤ t.elapsedMs))) ∧
  (∀ (s t : State) (o : Operation) (addr : LinearAddress) (v : Byte), s.rst = none → s.seq = .busy o →
    o.todo = [.sendData addr v, .waitSettle] → step s = .next t →
    t.requests = s.requests ∧
    ((t.seq = .busy o ∧ t.responses = s.responses ∧ t.elapsedMs = s.elapsedMs) ∨
      (t.seq = .busy { o with todo := [.waitSettle] } ∧ t.settle = .running ∧ t.responses = s.responses) ∨
      (t.seq = .idle ∧ ∃ r, t.responses = s.responses ++ [r] ∧
        (r.st = .transportError ∨ t.settle = .stopped ∧ s.elapsedMs + 200 ≤ t.elapsedMs))))

/-- O36. After a successful MWRB and its delay, an MRDB of the same address returns the byte, provided the address is
below the capacity and the device keeps its contract: it delivers the byte it holds (R198; what it is known to hold: log
entry 7). -/
def Obligations.MemoryWriteThenReadReturnsTheByte : Prop :=
  ∀ (s t : State) (addr : LinearAddress) (v : Byte) (p q : TransportResponse) (rest : List TransportResponse),
    exec (.mwrb addr v) s = .next t → t.transportReady →
    t.responses = s.responses ++ [{ st := .ok, te := 0, ef := none, res := some .empty }] →
    addr.toNat < s.memCapacity → s.chips.writeCycle = false →
    p.ok = true → q.ok = true →
    (∀ b, t.chips.readBack addr = some b → q.data = b) →
    ∃ u, exec (.mrdb addr) { t with answers := p :: q :: rest } = .next u ∧
      u.responses = t.responses ++ [{ st := .ok, te := 0, ef := none, res := some (.data v) }]

/-- O37. Memory frame: MWRB, whatever its outcome, leaves the byte at every other address as it was known, outside a
write cycle and below the capacity, and the clock registers altogether; SETADDR and MRDB leave every byte (R198; log entry
7, deduced). -/
def Obligations.AddressorLeavesOtherBytesUntouched : Prop :=
  (∀ (s t : State) (addr : LinearAddress) (v : Byte), exec (.mwrb addr v) s = .next t →
    t.chips.clock = s.chips.clock ∧
    (s.chips.writeCycle = false → addr.toNat < s.memCapacity →
      ∀ x : Nat, x ≠ addr.toNat → Memory.read t.chips.mem x = Memory.read s.chips.mem x)) ∧
  (∀ (i : Instr) (s t : State) (addr : LinearAddress), i = .setaddr addr ∨ i = .mrdb addr → exec i s = .next t →
    t.chips.clock = s.chips.clock ∧ t.chips.writeCycle = s.chips.writeCycle ∧
    (s.chips.writeCycle = false → t.chips.mem = s.chips.mem))

/-! ## Whole-machine rules -/

/-- O38. Frame of the codec and the read operations: BCDDEC, BCDENC, RDALL and RDTEMP change nothing of either chip. -/
def Obligations.CodecAndReadsChangeNoChip : Prop :=
  ∀ (i : Instr) (s t : State), (∃ b, i = .bcddec b) ∨ (∃ v, i = .bcdenc v) ∨ (∃ c, i = .rdall c) ∨ i = .rdtemp →
    exec i s = .next t → t.chips = s.chips

/-- O39. No operation but MWRB starts the settle timer or waits for it (R38, R248). -/
def Obligations.OnlyMwrbUsesTheSettleTimer : Prop :=
  ∀ (i : Instr) (s t : State), (∀ a v, i ≠ .mwrb a v) → exec i s = .next t →
    t.settle = s.settle ∧ t.settleExtras = s.settleExtras ∧ t.elapsedMs = s.elapsedMs

/-- O40. The block accesses nine register offsets of the clock device and no others: every request any step sends is a
read of the nine, a write of one of the seven time registers with a BCD byte of a value in that field's range, or a
transfer with the memory device; no write reaches a temperature register, the offsets being legal (R161). -/
def Obligations.EveryRequestIsLegal : Prop :=
  ∀ s t : State, step s = .next t →
    ∃ new, t.requests = s.requests ++ new ∧ ∀ r ∈ new,
      s.legalRequest r ∧
      (legalOffsets s.offsets → ∀ dev reg val, r = .wrreg dev reg val → reg ≠ 0x11 ∧ reg ≠ 0x12)

/-- O41. What is fixed at construction never changes: no step but a reset changes the two device addresses, the link,
the offsets or the capacity (R33 to R35, R240; the addresses as registers are the spec's decision D19). -/
def Obligations.ConfigurationIsImmutable : Prop :=
  ∀ s t : State, s.rst = none → step s = .next t → s.sameConfiguration t

/-- O42. No operation depends on what an earlier one did (R32, the spec's decision D5; R162): with any other history of
requests, responses, chips' contents and time, an operation takes the same step, sending the same requests and issuing
the same response. -/
def Obligations.OperationsDoNotDependOnHistory : Prop :=
  ∀ (i : Instr) (s t : State), exec i s = .next t →
    ∃ newRq newRs, t.requests = s.requests ++ newRq ∧ t.responses = s.responses ++ newRs ∧
      ∀ (c : Chips) (rq : List Request) (rs : List Response) (ms : Nat), ∃ c' ms',
        exec i (s.withHistory c rq rs ms) = .next (t.withHistory c' (rq ++ newRq) (rs ++ newRs) ms')

/-- O43. When the environment's answers arrive makes no difference (R31, R60, R73): an operation that was left waiting
and is gone on with when further answers and settle times have come is the operation run with all of them there; one
that was answered leaves them for the next. -/
def Obligations.LateAnswersResumeTheSameOperation : Prop :=
  ∀ (i : Instr) (s t : State) (as : List TransportResponse) (es : List Nat), exec i s = .next t →
    (t.seq = .idle → exec i (s.withMore as es) = .next (t.withMore as es)) ∧
    (∀ o, t.seq = .busy o → t.rst = none → exec i (s.withMore as es) = step (t.withMore as es))

/-- O44. A transport request that is never answered hangs the block (R221): it stays `BUSY` as it is, issues no response
and accepts no command, for any number of steps, until reset. R221 asks for no enabled step; that a hung block's step is
the one that leaves it as it is, is the model's choice (log entry 11). -/
def Obligations.UnansweredRequestHangsTheBlock : Prop :=
  ∀ (s : State) (r : Request) (n : Nat), s.Inv → s.soleOwner = true → s.rst = none → s.outstanding = some r →
    s.answers = [] → Host.Core.run Sys2Proof.core n s = .next s

/-- O45. A second user of the transport or the devices is refused a meaning (R226). Refused so is every operation whose
first step makes a transport request, whatever its operands (WRALL, WRCOMP and WRNOW when the first value they write is
in range), every step that goes on with an operation in progress, the settle wait among them, and the host's pause, since
nothing of the settle delay then holds. That a transport that is not open is refused too is the model's (log entry 16,
deduced from R244). The codec, which makes no request, runs all the same. -/
def Obligations.SharedTransportIsRefused : Prop :=
  (∀ (s : State) (i : Instr),
    (∃ c, i = .rdall c) ∨ i = .rdtemp ∨ (∃ a, i = .setaddr a) ∨ (∃ a, i = .mrdb a) ∨ (∃ a v, i = .mwrb a v) ∨
      (∃ x f k post, i = .wrall x f ∧
        [TimeField.sec, .min, .hour, .year, .month, .dom, .wday].filter (fun k => x.getLsbD (fieldIndex k)) = k :: post ∧
        fieldLo k ≤ (f.get k).toNat ∧ (f.get k).toNat ≤ fieldHi k) ∨
      (∃ c f, i = .wrcomp c f ∧ f.sec.toNat ≤ 59) ∨
      (i = .wrnow ∧ (s.hostTime.extractLsb' 0 8).toNat ≤ 59) →
    (s.linkOpen = true → s.soleOwner = false → exec i s = .refused .transportShared) ∧
    (s.linkOpen = false → exec i s = .refused .linkNotOpen)) ∧
  (∀ (s : State) (o : Operation) (m : MicroOp) (rest : List MicroOp), s.rst = none → s.seq = .busy o →
    o.todo = m :: rest → m.check = none → s.linkOpen = true → s.soleOwner = false →
    step s = .refused .transportShared) ∧
  (∀ (s : State) (extra : Nat) (rest : List HostEvent), s.rst = none → s.seq = .idle →
    s.hostQueue = .pause extra :: rest → s.soleOwner = false → step s = .refused .transportShared) ∧
  (∀ (s : State) (b : Byte), (∃ t, exec (.bcddec b) s = .next t) ∧ ∃ t, exec (.bcdenc b) s = .next t)

/-- O46. With nothing presented and `RST` not asserted, an `IDLE` block does nothing (R241, the spec's decision D24). -/
def Obligations.IdleBlockDoesNothing : Prop :=
  ∀ s : State, s.rst = none → s.seq = .idle → s.hostQueue = [] → step s = .next s

/-! ## Errors and reset (spec/60_exceptions.md, spec/70_reset_and_hazards.md) -/

/-- O47. The block's own state after an error is exactly its state after a success: whatever the response, the
sequencer is `IDLE` and the timer `STOPPED`, and the next command is accepted like any other (R217, R218). -/
def Obligations.EveryResponseLeavesTheBlockIdle : Prop :=
  ∀ s t : State, s.Inv → s.rst = none → step s = .next t → t.responses ≠ s.responses →
    t.seq = .idle ∧ t.settle = .stopped ∧ t.outstanding = none

/-- O48. Reset (R240 to R243, the spec's decision D24): the addresses are the straps', the sequencer is `IDLE`, the
timer `STOPPED`, the link open, nothing outstanding; no response is issued and nothing is sent; the chips are untouched
when no request was outstanding, and `HOSTTIME`, the offsets and what the host will present always; the late answer to a
request that was outstanding is dropped, and of the chips only what that request concerns becomes unknown, as after a
failed one (R65; log entry 7). That such a request takes effect by this step or never is the model's choice (log entry 21:
R242 gives no moment). -/
def Obligations.ResetAbandonsTheOperation : Prop :=
  ∀ (s : State) (p : Straps), s.rst = some p → ∃ t, step s = .next t ∧
    t.clockAddr = p.clockAddr ∧ t.memAddr = p.memAddr ∧ t.seq = .idle ∧ t.settle = .stopped ∧ t.linkOpen = true ∧
    t.outstanding = none ∧ t.rst = none ∧ t.responses = s.responses ∧ t.requests = s.requests ∧
    t.hostTime = s.hostTime ∧ t.hostQueue = s.hostQueue ∧ t.offsets = s.offsets ∧ t.elapsedMs = s.elapsedMs ∧
    (s.outstanding = none → t.chips = s.chips ∧ t.answers = s.answers) ∧
    (∀ r, s.outstanding = some r → t.answers = s.answers.tail ∧ t.chips = s.chips.after s.memCapacity false r)

/-- O49. The reset state (R43, the spec's decision D24): `IDLE`, `STOPPED`, `CLOCK_ADDR` its default 0x68, the link
open, nothing outstanding, no response pending. -/
def Obligations.ResetStateIsAsTheSpecSays : Prop :=
  State.reset.seq = .idle ∧ State.reset.settle = .stopped ∧ State.reset.clockAddr = 0x68 ∧
  State.reset.linkOpen = true ∧ State.reset.outstanding = none ∧ State.reset.responses = [] ∧
  State.reset.requests = []

/-- O50. After a data write cut off by a reset, in its write cycle or with the transfer still outstanding, the device may
be inside its write cycle and nothing read from it is fixed (R242, R247; log entry 7, deduced); a host that lets
`T_SETTLE` pass ends that (R245, the spec's decision D32), the abandoned transfer's write cycle included, which is the
model's choice (log entry 21: R242 does not say by when that transfer can take effect). -/
def Obligations.PauseAfterResetEndsTheWriteCycle : Prop :=
  (∀ (s : State) (p : Straps) (a : LinearAddress), s.chips.writeCycle = true →
    (applyReset p s).chips.writeCycle = true ∧ (applyReset p s).chips.readBack a = none) ∧
  (∀ (s : State) (p : Straps) (a : LinearAddress) (dev hi lo v : Byte),
    s.outstanding = some (.wrblk dev hi lo (some v)) →
    (applyReset p s).chips.writeCycle = true ∧ (applyReset p s).chips.readBack a = none) ∧
  (∀ (s : State) (extra : Nat) (rest : List HostEvent), s.rst = none → s.seq = .idle →
    s.hostQueue = .pause extra :: rest → s.soleOwner = true → ∃ t, step s = .next t ∧
    t.chips.writeCycle = false ∧ t.elapsedMs = s.elapsedMs + 200 + extra ∧ t.requests = s.requests ∧
    t.responses = s.responses ∧ t.hostQueue = rest)

/-! ## The invariant -/

/-- O51. The invariant holds at reset: the link is open, the offsets are legal, the sequencer is `IDLE` with the timer
stopped, and the stores are canonical. -/
def Obligations.StateInvariantHoldsAtReset : Prop := State.reset.Inv

/-- O52. Every step keeps the invariant, from every state that has it, `RST` asserted or not. -/
def Obligations.StateInvariantIsKeptByEveryStep : Prop :=
  ∀ s t : State, s.Inv → step s = .next t → t.Inv

/-! ## Error classes and codes -/

/-- O53. The codes of the two ports: the numbers of the seven fields (R11, the spec's decision D6), the status and
error-field codes of a response (R103, its decision D5) and the message of each transport request (R79, its decision
D20). -/
def Obligations.PortCodesAreAsTheSpecSays : Prop :=
  (Status.code .ok = 0 ∧ Status.code .rangeError = 1 ∧ Status.code .transportError = 2 ∧
    Status.code .undefinedDecodeError = 3 ∧ Status.code .illegalCommand = 4) ∧
  (fieldIndex .sec = 0 ∧ fieldIndex .min = 1 ∧ fieldIndex .hour = 2 ∧ fieldIndex .wday = 3 ∧ fieldIndex .dom = 4 ∧
    fieldIndex .month = 5 ∧ fieldIndex .year = 6) ∧
  (errorFieldCode (some .sec) = 0 ∧ errorFieldCode (some .min) = 1 ∧ errorFieldCode (some .hour) = 2 ∧
    errorFieldCode (some .wday) = 3 ∧ errorFieldCode (some .dom) = 4 ∧ errorFieldCode (some .month) = 5 ∧
    errorFieldCode (some .year) = 6 ∧ errorFieldCode none = 7) ∧
  (∀ d r v : Byte, (Request.wrreg d r v).message =
    { kind := 0, dev := d, reg := some r, val := some v, len := none, blk := [] }) ∧
  (∀ d r : Byte, (Request.rdreg d r).message =
    { kind := 1, dev := d, reg := some r, val := none, len := none, blk := [] }) ∧
  (∀ d : Byte, (Request.rdraw d).message =
    { kind := 2, dev := d, reg := none, val := none, len := none, blk := [] }) ∧
  (∀ d h l : Byte, (Request.wrblk d h l none).message =
    { kind := 3, dev := d, reg := none, val := none, len := some 2, blk := [h, l] }) ∧
  (∀ d h l v : Byte, (Request.wrblk d h l (some v)).message =
    { kind := 3, dev := d, reg := none, val := none, len := some 3, blk := [h, l, v] })

/-- O54. `RangeError` (R211): whenever an operation answers it, it is WRALL, WRCOMP or WRNOW, the field named is one
whose value is below `lo[k]` or above `hi[k]`, and no request was made for that field, the offsets being legal (R7). -/
def Obligations.RangeErrorNamesAFieldOutOfRange : Prop :=
  ∀ (i : Instr) (s t : State) (r : Response), exec i s = .next t → t.responses = s.responses ++ [r] →
    r.st = .rangeError →
    ∃ (k : TimeField) (v : Byte) (new : List Request),
      r = { st := .rangeError, te := 0, ef := some k, res := none } ∧
      (v.toNat < fieldLo k ∨ fieldHi k < v.toNat) ∧
      ((∃ x f, i = .wrall x f ∧ x.getLsbD (fieldIndex k) = true ∧ v = f.get k) ∨
        (∃ c f, i = .wrcomp c f ∧ k ≠ .wday ∧ v = f.get k) ∨
        (i = .wrnow ∧ k ≠ .wday ∧ v = (FieldBytes.ofPayload (s.hostTime)).get k)) ∧
      t.requests = s.requests ++ new ∧
      (legalOffsets s.offsets → ∀ dev val, Request.wrreg dev (s.offsets.get k) val ∉ new)

/-- O55. Which operation can answer which error (R210 to R214; the classes' codes are the spec's decision D5, the
rejection of a bad nibble its decision D10): `TransportError` never the codec, and with a field only the operations on
time fields; `UndefinedDecodeError` only BCDDEC, with no field, and RDALL, with one; `IllegalCommand` no operation. -/
def Obligations.ErrorClassesComeOnlyFromTheirOperations : Prop :=
  ∀ (i : Instr) (s t : State) (r : Response), exec i s = .next t → t.responses = s.responses ++ [r] →
    (r.st = .rangeError → (∃ x f, i = .wrall x f) ∨ (∃ c f, i = .wrcomp c f) ∨ i = .wrnow) ∧
    (r.st = .transportError →
      ((∃ c, i = .rdall c) ∨ (∃ x f, i = .wrall x f) ∨ (∃ c f, i = .wrcomp c f) ∨ i = .wrnow) ∧ r.ef.isSome = true ∨
      (i = .rdtemp ∨ (∃ a, i = .setaddr a) ∨ (∃ a, i = .mrdb a) ∨ (∃ a v, i = .mwrb a v)) ∧ r.ef = none) ∧
    (r.st = .undefinedDecodeError → (∃ b, i = .bcddec b) ∧ r.ef = none ∨ (∃ c, i = .rdall c) ∧ r.ef.isSome = true) ∧
    r.st ≠ .illegalCommand

/-- O56. WRALL, WRCOMP and WRNOW, however they end or wait, leave the memory device alone: its bytes, its pointer and its
write cycle are known as before (R149, R152, R155: their requests are writes of the clock device's registers, and a
failed one touches only what it names, log entry 7, deduced). -/
def Obligations.ClockWritesLeaveTheMemoryDevice : Prop :=
  ∀ (i : Instr) (s t : State), (∃ x f, i = .wrall x f) ∨ (∃ c f, i = .wrcomp c f) ∨ i = .wrnow → exec i s = .next t →
    t.chips.mem = s.chips.mem ∧ t.chips.ptr = s.chips.ptr ∧ t.chips.writeCycle = s.chips.writeCycle

/-- O57. What the assembler refuses (R105, R106, the spec's decision D28; repeated names: log entry 20). A decimal or 0x
hexadecimal number is read as its value when it fits a byte or an address, and not at all when it does not; a form
whose operand does not fit is refused; so is a list of assignments with a value that does not fit or a name twice, `cent`
for WRALL, `wday` or a missing field for WRCOMP; and so is any line with a minus sign before its comment. -/
def Obligations.AssemblerRefusesWhatDoesNotFit : Prop :=
  (∀ n : Nat,
    byteOperand (Nat.toDigits 10 n) = (if n ≤ 255 then some (BitVec.ofNat 8 n) else none) ∧
    byteOperand ('0' :: 'x' :: Nat.toDigits 16 n) = (if n ≤ 255 then some (BitVec.ofNat 8 n) else none) ∧
    addressOperand (Nat.toDigits 10 n) = (if n ≤ 65535 then some (BitVec.ofNat 16 n) else none) ∧
    addressOperand ('0' :: 'x' :: Nat.toDigits 16 n) = (if n ≤ 65535 then some (BitVec.ofNat 16 n) else none)) ∧
  (∀ cs : List Char, byteOperand cs = none →
    assembleLexemes [.atom "BCDDEC".toList, .atom cs] = none ∧
    assembleLexemes [.atom "BCDENC".toList, .atom cs] = none ∧
    assembleLexemes [.atom "RDALL".toList, .atom cs] = none ∧
    ∀ a : List Char, assembleLexemes [.atom "MWRB".toList, .atom a, .comma, .atom cs] = none) ∧
  (∀ cs : List Char, addressOperand cs = none →
    assembleLexemes [.atom "SETADDR".toList, .atom cs] = none ∧
    assembleLexemes [.atom "MRDB".toList, .atom cs] = none ∧
    ∀ v : List Char, assembleLexemes [.atom "MWRB".toList, .atom cs, .comma, .atom v] = none) ∧
  (∀ as : List (OperandName × List Char), (∃ p ∈ as, byteOperand p.2 = none) ∨ ¬ (as.map (·.1)).Nodup →
    assembleLexemes (.atom "WRALL".toList :: assignmentLexemes as) = none ∧
    assembleLexemes (.atom "WRCOMP".toList :: assignmentLexemes as) = none) ∧
  (∀ as : List (OperandName × List Char), .cent ∈ as.map (·.1) →
    assembleLexemes (.atom "WRALL".toList :: assignmentLexemes as) = none) ∧
  (∀ as : List (OperandName × List Char),
    .field .wday ∈ as.map (·.1) ∨ (∃ k, k ≠ .wday ∧ .field k ∉ as.map (·.1)) →
    assembleLexemes (.atom "WRCOMP".toList :: assignmentLexemes as) = none) ∧
  (∀ cs ds : List Char, ';' ∉ cs → assembleLine (String.ofList (cs ++ '-' :: ds)) = .refused)
end

