-- ==== Sys2Proof/Laws/Decode.lean ====
section
/-! SUPPORT. What the bytes of an encoded word are (spec/30_encoding.md R90 to R94), and that a word is put together
from its fields, so that no proof about the decoder goes bit by bit again. -/

namespace Sys2Proof

/-- Format Z: the opcode byte, and the payload all zero (R91). -/
theorem encodeZ_parts (op : Byte) : opcodeByte (encodeZ op) = op ∧ (encodeZ op).extractLsb' 0 64 = 0 := by
  constructor
  all_goals
    apply BitVec.eq_of_getLsbD_eq
    intro i hi
    simp only [opcodeByte, encodeZ, BitVec.getLsbD_extractLsb', BitVec.getLsbD_append]
    interval_cases i <;> simp

/-- Format B: the opcode byte, the operand, and the other payload bytes zero (R92). -/
theorem encodeB_parts (op b : Byte) :
    opcodeByte (encodeB op b) = op ∧ payloadByte (encodeB op b) 0 = b ∧ (encodeB op b).extractLsb' 8 56 = 0 := by
  refine ⟨?_, ?_, ?_⟩
  all_goals
    apply BitVec.eq_of_getLsbD_eq
    intro i hi
    simp only [opcodeByte, payloadByte, encodeB, BitVec.getLsbD_extractLsb', BitVec.getLsbD_append]
    interval_cases i <;> simp

/-- Format A: the opcode byte, the data byte, the address, and the other payload bytes zero (R93). -/
theorem encodeA_parts (op v : Byte) (a : LinearAddress) :
    opcodeByte (encodeA op v a) = op ∧ payloadByte (encodeA op v a) 2 = v ∧ (encodeA op v a).extractLsb' 0 16 = a ∧
      (encodeA op v a).extractLsb' 24 40 = 0 ∧ (v = 0 → (encodeA op v a).extractLsb' 16 48 = 0) := by
  refine ⟨?_, ?_, ?_, ?_, fun hv => ?_⟩
  on_goal 5 => subst hv
  all_goals
    apply BitVec.eq_of_getLsbD_eq
    intro i hi
    simp only [opcodeByte, payloadByte, encodeA, BitVec.getLsbD_extractLsb', BitVec.getLsbD_append]
    interval_cases i <;> simp

/-- Format F: the opcode byte, the extra byte, the seven field bytes, and the extra byte's bit 7 (R94). -/
theorem encodeF_parts (op x : Byte) (f : FieldBytes) :
    opcodeByte (encodeF op x f) = op ∧ payloadByte (encodeF op x f) 7 = x ∧
      FieldBytes.ofPayload ((encodeF op x f).extractLsb' 0 64) = f ∧ (encodeF op x f).getLsbD 63 = x.getLsbD 7 := by
  obtain ⟨a0, a1, a2, a3, a4, a5, a6⟩ := f
  refine ⟨?_, ?_, ?_, by simp only [encodeF, BitVec.getLsbD_append]; simp⟩
  on_goal 3 =>
    simp only [FieldBytes.ofPayload, FieldBytes.mk.injEq]
    refine ⟨?_, ?_, ?_, ?_, ?_, ?_, ?_⟩
  all_goals
    apply BitVec.eq_of_getLsbD_eq
    intro i hi
    simp only [opcodeByte, payloadByte, encodeF, BitVec.getLsbD_extractLsb', BitVec.getLsbD_append]
    interval_cases i <;> simp

/-- A word is its opcode byte and its payload. -/
theorem split_at_opcode (w : CommandWord) : (w.extractLsb' 64 8 ++ w.extractLsb' 0 64 : BitVec 72) = w := by
  apply BitVec.eq_of_getLsbD_eq
  intro i hi
  simp only [BitVec.getLsbD_extractLsb', BitVec.getLsbD_append]
  interval_cases i <;> simp

/-- A word in the fields of Format B. -/
theorem split_as_formatB (w : CommandWord) :
    (w.extractLsb' 64 8 ++ w.extractLsb' 8 56 ++ w.extractLsb' 0 8 : BitVec 72) = w := by
  apply BitVec.eq_of_getLsbD_eq
  intro i hi
  simp only [BitVec.getLsbD_extractLsb', BitVec.getLsbD_append]
  interval_cases i <;> simp

/-- A word in the fields of Format A. -/
theorem split_as_formatA (w : CommandWord) :
    (w.extractLsb' 64 8 ++ w.extractLsb' 24 40 ++ w.extractLsb' 16 8 ++ w.extractLsb' 0 16 : BitVec 72) = w := by
  apply BitVec.eq_of_getLsbD_eq
  intro i hi
  simp only [BitVec.getLsbD_extractLsb', BitVec.getLsbD_append]
  interval_cases i <;> simp

/-- A word in the fields of Format F. -/
theorem split_as_formatF (w : CommandWord) :
    encodeF (opcodeByte w) (payloadByte w 7) (FieldBytes.ofPayload (w.extractLsb' 0 64)) = w := by
  apply BitVec.eq_of_getLsbD_eq
  intro i hi
  simp only [encodeF, opcodeByte, payloadByte, FieldBytes.ofPayload, BitVec.getLsbD_extractLsb',
    BitVec.getLsbD_append]
  interval_cases i <;> simp

/-- A checked decode that gives a command had its reserved bits zero. -/
theorem decodeChecked_command {op : Byte} {r : Bool} {i j : Instr} :
    decodeChecked op r i = .command j ↔ r = true ∧ i = j := by
  unfold decodeChecked
  split <;> simp_all

end Sys2Proof
end

