-- ==== Sys2Proof/Laws/State.lean ====
section
/-! SUPPORT. Each named update of the state, field by field: what it sets and what it leaves, so that no proof unfolds
a record update. -/

namespace Sys2Proof.Machine

variable (s : State)

/-! ## respond -/

@[simp] theorem respond_clockAddr (r : Response) : (respond r s).clockAddr = s.clockAddr := rfl
@[simp] theorem respond_memAddr (r : Response) : (respond r s).memAddr = s.memAddr := rfl
@[simp] theorem respond_linkOpen (r : Response) : (respond r s).linkOpen = s.linkOpen := rfl
@[simp] theorem respond_seq (r : Response) : (respond r s).seq = .idle := rfl
@[simp] theorem respond_settle (r : Response) : (respond r s).settle = s.settle := rfl
@[simp] theorem respond_offsets (r : Response) : (respond r s).offsets = s.offsets := rfl
@[simp] theorem respond_memCapacity (r : Response) : (respond r s).memCapacity = s.memCapacity := rfl
@[simp] theorem respond_hostTime (r : Response) : (respond r s).hostTime = s.hostTime := rfl
@[simp] theorem respond_rst (r : Response) : (respond r s).rst = s.rst := rfl
@[simp] theorem respond_hostQueue (r : Response) : (respond r s).hostQueue = s.hostQueue := rfl
@[simp] theorem respond_answers (r : Response) : (respond r s).answers = s.answers := rfl
@[simp] theorem respond_settleExtras (r : Response) : (respond r s).settleExtras = s.settleExtras := rfl
@[simp] theorem respond_soleOwner (r : Response) : (respond r s).soleOwner = s.soleOwner := rfl
@[simp] theorem respond_chips (r : Response) : (respond r s).chips = s.chips := rfl
@[simp] theorem respond_requests (r : Response) : (respond r s).requests = s.requests := rfl
@[simp] theorem respond_responses (r : Response) : (respond r s).responses = s.responses ++ [r] := rfl
@[simp] theorem respond_elapsedMs (r : Response) : (respond r s).elapsedMs = s.elapsedMs := rfl
@[simp] theorem respond_freeDraws (r : Response) : (respond r s).freeDraws = s.freeDraws := rfl

/-! ## raiseError -/

@[simp] theorem raiseError_clockAddr (e : OpError) : (raiseError e s).clockAddr = s.clockAddr := rfl
@[simp] theorem raiseError_memAddr (e : OpError) : (raiseError e s).memAddr = s.memAddr := rfl
@[simp] theorem raiseError_linkOpen (e : OpError) : (raiseError e s).linkOpen = s.linkOpen := rfl
@[simp] theorem raiseError_seq (e : OpError) : (raiseError e s).seq = .idle := rfl
@[simp] theorem raiseError_settle (e : OpError) : (raiseError e s).settle = s.settle := rfl
@[simp] theorem raiseError_offsets (e : OpError) : (raiseError e s).offsets = s.offsets := rfl
@[simp] theorem raiseError_memCapacity (e : OpError) : (raiseError e s).memCapacity = s.memCapacity := rfl
@[simp] theorem raiseError_hostTime (e : OpError) : (raiseError e s).hostTime = s.hostTime := rfl
@[simp] theorem raiseError_rst (e : OpError) : (raiseError e s).rst = s.rst := rfl
@[simp] theorem raiseError_hostQueue (e : OpError) : (raiseError e s).hostQueue = s.hostQueue := rfl
@[simp] theorem raiseError_answers (e : OpError) : (raiseError e s).answers = s.answers := rfl
@[simp] theorem raiseError_settleExtras (e : OpError) : (raiseError e s).settleExtras = s.settleExtras := rfl
@[simp] theorem raiseError_soleOwner (e : OpError) : (raiseError e s).soleOwner = s.soleOwner := rfl
@[simp] theorem raiseError_chips (e : OpError) : (raiseError e s).chips = s.chips := rfl
@[simp] theorem raiseError_requests (e : OpError) : (raiseError e s).requests = s.requests := rfl
@[simp] theorem raiseError_responses (e : OpError) : (raiseError e s).responses = s.responses ++ [errorResponse e] := rfl
@[simp] theorem raiseError_elapsedMs (e : OpError) : (raiseError e s).elapsedMs = s.elapsedMs := rfl
@[simp] theorem raiseError_freeDraws (e : OpError) : (raiseError e s).freeDraws = s.freeDraws := rfl

/-! ## sendRequest -/

@[simp] theorem sendRequest_clockAddr (r : Request) : (sendRequest r s).clockAddr = s.clockAddr := rfl
@[simp] theorem sendRequest_memAddr (r : Request) : (sendRequest r s).memAddr = s.memAddr := rfl
@[simp] theorem sendRequest_linkOpen (r : Request) : (sendRequest r s).linkOpen = s.linkOpen := rfl
@[simp] theorem sendRequest_seq (r : Request) : (sendRequest r s).seq = s.seq := rfl
@[simp] theorem sendRequest_settle (r : Request) : (sendRequest r s).settle = s.settle := rfl
@[simp] theorem sendRequest_offsets (r : Request) : (sendRequest r s).offsets = s.offsets := rfl
@[simp] theorem sendRequest_memCapacity (r : Request) : (sendRequest r s).memCapacity = s.memCapacity := rfl
@[simp] theorem sendRequest_hostTime (r : Request) : (sendRequest r s).hostTime = s.hostTime := rfl
@[simp] theorem sendRequest_rst (r : Request) : (sendRequest r s).rst = s.rst := rfl
@[simp] theorem sendRequest_hostQueue (r : Request) : (sendRequest r s).hostQueue = s.hostQueue := rfl
@[simp] theorem sendRequest_answers (r : Request) : (sendRequest r s).answers = s.answers := rfl
@[simp] theorem sendRequest_settleExtras (r : Request) : (sendRequest r s).settleExtras = s.settleExtras := rfl
@[simp] theorem sendRequest_soleOwner (r : Request) : (sendRequest r s).soleOwner = s.soleOwner := rfl
@[simp] theorem sendRequest_chips (r : Request) : (sendRequest r s).chips = s.chips := rfl
@[simp] theorem sendRequest_requests (r : Request) : (sendRequest r s).requests = s.requests ++ [r] := rfl
@[simp] theorem sendRequest_responses (r : Request) : (sendRequest r s).responses = s.responses := rfl
@[simp] theorem sendRequest_elapsedMs (r : Request) : (sendRequest r s).elapsedMs = s.elapsedMs := rfl
@[simp] theorem sendRequest_freeDraws (r : Request) : (sendRequest r s).freeDraws = s.freeDraws := rfl

/-! ## takeAnswer -/

@[simp] theorem takeAnswer_clockAddr (r : Request) (a : TransportResponse) (rest : List TransportResponse) :
    (takeAnswer r a rest s).clockAddr = s.clockAddr := rfl
@[simp] theorem takeAnswer_memAddr (r : Request) (a : TransportResponse) (rest : List TransportResponse) :
    (takeAnswer r a rest s).memAddr = s.memAddr := rfl
@[simp] theorem takeAnswer_linkOpen (r : Request) (a : TransportResponse) (rest : List TransportResponse) :
    (takeAnswer r a rest s).linkOpen = s.linkOpen := rfl
@[simp] theorem takeAnswer_seq (r : Request) (a : TransportResponse) (rest : List TransportResponse) :
    (takeAnswer r a rest s).seq = s.seq := rfl
@[simp] theorem takeAnswer_settle (r : Request) (a : TransportResponse) (rest : List TransportResponse) :
    (takeAnswer r a rest s).settle = s.settle := rfl
@[simp] theorem takeAnswer_offsets (r : Request) (a : TransportResponse) (rest : List TransportResponse) :
    (takeAnswer r a rest s).offsets = s.offsets := rfl
@[simp] theorem takeAnswer_memCapacity (r : Request) (a : TransportResponse) (rest : List TransportResponse) :
    (takeAnswer r a rest s).memCapacity = s.memCapacity := rfl
@[simp] theorem takeAnswer_hostTime (r : Request) (a : TransportResponse) (rest : List TransportResponse) :
    (takeAnswer r a rest s).hostTime = s.hostTime := rfl
@[simp] theorem takeAnswer_rst (r : Request) (a : TransportResponse) (rest : List TransportResponse) :
    (takeAnswer r a rest s).rst = s.rst := rfl
@[simp] theorem takeAnswer_hostQueue (r : Request) (a : TransportResponse) (rest : List TransportResponse) :
    (takeAnswer r a rest s).hostQueue = s.hostQueue := rfl
@[simp] theorem takeAnswer_answers (r : Request) (a : TransportResponse) (rest : List TransportResponse) :
    (takeAnswer r a rest s).answers = rest := rfl
@[simp] theorem takeAnswer_settleExtras (r : Request) (a : TransportResponse) (rest : List TransportResponse) :
    (takeAnswer r a rest s).settleExtras = s.settleExtras := rfl
@[simp] theorem takeAnswer_soleOwner (r : Request) (a : TransportResponse) (rest : List TransportResponse) :
    (takeAnswer r a rest s).soleOwner = s.soleOwner := rfl
@[simp] theorem takeAnswer_chips (r : Request) (a : TransportResponse) (rest : List TransportResponse) :
    (takeAnswer r a rest s).chips = s.chips.after s.memCapacity a.ok r := rfl
@[simp] theorem takeAnswer_requests (r : Request) (a : TransportResponse) (rest : List TransportResponse) :
    (takeAnswer r a rest s).requests = s.requests := rfl
@[simp] theorem takeAnswer_responses (r : Request) (a : TransportResponse) (rest : List TransportResponse) :
    (takeAnswer r a rest s).responses = s.responses := rfl
@[simp] theorem takeAnswer_elapsedMs (r : Request) (a : TransportResponse) (rest : List TransportResponse) :
    (takeAnswer r a rest s).elapsedMs = s.elapsedMs := rfl
@[simp] theorem takeAnswer_freeDraws (r : Request) (a : TransportResponse) (rest : List TransportResponse) :
    (takeAnswer r a rest s).freeDraws = s.freeDraws := rfl

/-! ## startSettle -/

@[simp] theorem startSettle_clockAddr : (startSettle s).clockAddr = s.clockAddr := rfl
@[simp] theorem startSettle_memAddr : (startSettle s).memAddr = s.memAddr := rfl
@[simp] theorem startSettle_linkOpen : (startSettle s).linkOpen = s.linkOpen := rfl
@[simp] theorem startSettle_seq : (startSettle s).seq = s.seq := rfl
@[simp] theorem startSettle_settle : (startSettle s).settle = .running := rfl
@[simp] theorem startSettle_offsets : (startSettle s).offsets = s.offsets := rfl
@[simp] theorem startSettle_memCapacity : (startSettle s).memCapacity = s.memCapacity := rfl
@[simp] theorem startSettle_hostTime : (startSettle s).hostTime = s.hostTime := rfl
@[simp] theorem startSettle_rst : (startSettle s).rst = s.rst := rfl
@[simp] theorem startSettle_hostQueue : (startSettle s).hostQueue = s.hostQueue := rfl
@[simp] theorem startSettle_answers : (startSettle s).answers = s.answers := rfl
@[simp] theorem startSettle_settleExtras : (startSettle s).settleExtras = s.settleExtras := rfl
@[simp] theorem startSettle_soleOwner : (startSettle s).soleOwner = s.soleOwner := rfl
@[simp] theorem startSettle_chips : (startSettle s).chips = s.chips := rfl
@[simp] theorem startSettle_requests : (startSettle s).requests = s.requests := rfl
@[simp] theorem startSettle_responses : (startSettle s).responses = s.responses := rfl
@[simp] theorem startSettle_elapsedMs : (startSettle s).elapsedMs = s.elapsedMs := rfl
@[simp] theorem startSettle_freeDraws : (startSettle s).freeDraws = s.freeDraws := rfl

/-! ## elapseSettle -/

@[simp] theorem elapseSettle_clockAddr (extra : Nat) (rest : List Nat) : (elapseSettle extra rest s).clockAddr = s.clockAddr := rfl
@[simp] theorem elapseSettle_memAddr (extra : Nat) (rest : List Nat) : (elapseSettle extra rest s).memAddr = s.memAddr := rfl
@[simp] theorem elapseSettle_linkOpen (extra : Nat) (rest : List Nat) : (elapseSettle extra rest s).linkOpen = s.linkOpen := rfl
@[simp] theorem elapseSettle_seq (extra : Nat) (rest : List Nat) : (elapseSettle extra rest s).seq = s.seq := rfl
@[simp] theorem elapseSettle_settle (extra : Nat) (rest : List Nat) : (elapseSettle extra rest s).settle = .stopped := rfl
@[simp] theorem elapseSettle_offsets (extra : Nat) (rest : List Nat) : (elapseSettle extra rest s).offsets = s.offsets := rfl
@[simp] theorem elapseSettle_memCapacity (extra : Nat) (rest : List Nat) : (elapseSettle extra rest s).memCapacity = s.memCapacity := rfl
@[simp] theorem elapseSettle_hostTime (extra : Nat) (rest : List Nat) : (elapseSettle extra rest s).hostTime = s.hostTime := rfl
@[simp] theorem elapseSettle_rst (extra : Nat) (rest : List Nat) : (elapseSettle extra rest s).rst = s.rst := rfl
@[simp] theorem elapseSettle_hostQueue (extra : Nat) (rest : List Nat) : (elapseSettle extra rest s).hostQueue = s.hostQueue := rfl
@[simp] theorem elapseSettle_answers (extra : Nat) (rest : List Nat) : (elapseSettle extra rest s).answers = s.answers := rfl
@[simp] theorem elapseSettle_settleExtras (extra : Nat) (rest : List Nat) : (elapseSettle extra rest s).settleExtras = rest := rfl
@[simp] theorem elapseSettle_soleOwner (extra : Nat) (rest : List Nat) : (elapseSettle extra rest s).soleOwner = s.soleOwner := rfl
@[simp] theorem elapseSettle_chips (extra : Nat) (rest : List Nat) : (elapseSettle extra rest s).chips = { s.chips with writeCycle := false } := rfl
@[simp] theorem elapseSettle_requests (extra : Nat) (rest : List Nat) : (elapseSettle extra rest s).requests = s.requests := rfl
@[simp] theorem elapseSettle_responses (extra : Nat) (rest : List Nat) : (elapseSettle extra rest s).responses = s.responses := rfl
@[simp] theorem elapseSettle_elapsedMs (extra : Nat) (rest : List Nat) : (elapseSettle extra rest s).elapsedMs = s.elapsedMs + (Config.settleMs + extra) := rfl
@[simp] theorem elapseSettle_freeDraws (extra : Nat) (rest : List Nat) : (elapseSettle extra rest s).freeDraws = s.freeDraws := rfl

/-! ## waitAt -/

@[simp] theorem waitAt_clockAddr (o : Operation) : (waitAt o s).clockAddr = s.clockAddr := rfl
@[simp] theorem waitAt_memAddr (o : Operation) : (waitAt o s).memAddr = s.memAddr := rfl
@[simp] theorem waitAt_linkOpen (o : Operation) : (waitAt o s).linkOpen = s.linkOpen := rfl
@[simp] theorem waitAt_seq (o : Operation) : (waitAt o s).seq = .busy o := rfl
@[simp] theorem waitAt_settle (o : Operation) : (waitAt o s).settle = s.settle := rfl
@[simp] theorem waitAt_offsets (o : Operation) : (waitAt o s).offsets = s.offsets := rfl
@[simp] theorem waitAt_memCapacity (o : Operation) : (waitAt o s).memCapacity = s.memCapacity := rfl
@[simp] theorem waitAt_hostTime (o : Operation) : (waitAt o s).hostTime = s.hostTime := rfl
@[simp] theorem waitAt_rst (o : Operation) : (waitAt o s).rst = s.rst := rfl
@[simp] theorem waitAt_hostQueue (o : Operation) : (waitAt o s).hostQueue = s.hostQueue := rfl
@[simp] theorem waitAt_answers (o : Operation) : (waitAt o s).answers = s.answers := rfl
@[simp] theorem waitAt_settleExtras (o : Operation) : (waitAt o s).settleExtras = s.settleExtras := rfl
@[simp] theorem waitAt_soleOwner (o : Operation) : (waitAt o s).soleOwner = s.soleOwner := rfl
@[simp] theorem waitAt_chips (o : Operation) : (waitAt o s).chips = s.chips := rfl
@[simp] theorem waitAt_requests (o : Operation) : (waitAt o s).requests = s.requests := rfl
@[simp] theorem waitAt_responses (o : Operation) : (waitAt o s).responses = s.responses := rfl
@[simp] theorem waitAt_elapsedMs (o : Operation) : (waitAt o s).elapsedMs = s.elapsedMs := rfl
@[simp] theorem waitAt_freeDraws (o : Operation) : (waitAt o s).freeDraws = s.freeDraws := rfl

/-! ## hostPause -/

@[simp] theorem hostPause_clockAddr (extra : Nat) : (hostPause extra s).clockAddr = s.clockAddr := rfl
@[simp] theorem hostPause_memAddr (extra : Nat) : (hostPause extra s).memAddr = s.memAddr := rfl
@[simp] theorem hostPause_linkOpen (extra : Nat) : (hostPause extra s).linkOpen = s.linkOpen := rfl
@[simp] theorem hostPause_seq (extra : Nat) : (hostPause extra s).seq = s.seq := rfl
@[simp] theorem hostPause_settle (extra : Nat) : (hostPause extra s).settle = s.settle := rfl
@[simp] theorem hostPause_offsets (extra : Nat) : (hostPause extra s).offsets = s.offsets := rfl
@[simp] theorem hostPause_memCapacity (extra : Nat) : (hostPause extra s).memCapacity = s.memCapacity := rfl
@[simp] theorem hostPause_hostTime (extra : Nat) : (hostPause extra s).hostTime = s.hostTime := rfl
@[simp] theorem hostPause_rst (extra : Nat) : (hostPause extra s).rst = s.rst := rfl
@[simp] theorem hostPause_hostQueue (extra : Nat) : (hostPause extra s).hostQueue = s.hostQueue := rfl
@[simp] theorem hostPause_answers (extra : Nat) : (hostPause extra s).answers = s.answers := rfl
@[simp] theorem hostPause_settleExtras (extra : Nat) : (hostPause extra s).settleExtras = s.settleExtras := rfl
@[simp] theorem hostPause_soleOwner (extra : Nat) : (hostPause extra s).soleOwner = s.soleOwner := rfl
@[simp] theorem hostPause_chips (extra : Nat) : (hostPause extra s).chips = { s.chips with writeCycle := false } := rfl
@[simp] theorem hostPause_requests (extra : Nat) : (hostPause extra s).requests = s.requests := rfl
@[simp] theorem hostPause_responses (extra : Nat) : (hostPause extra s).responses = s.responses := rfl
@[simp] theorem hostPause_elapsedMs (extra : Nat) : (hostPause extra s).elapsedMs = s.elapsedMs + (Config.settleMs + extra) := rfl
@[simp] theorem hostPause_freeDraws (extra : Nat) : (hostPause extra s).freeDraws = s.freeDraws := rfl

/-! ## presentCommand -/

@[simp] theorem presentCommand_clockAddr (w : CommandWord) : (presentCommand w s).clockAddr = s.clockAddr := rfl
@[simp] theorem presentCommand_memAddr (w : CommandWord) : (presentCommand w s).memAddr = s.memAddr := rfl
@[simp] theorem presentCommand_linkOpen (w : CommandWord) : (presentCommand w s).linkOpen = s.linkOpen := rfl
@[simp] theorem presentCommand_seq (w : CommandWord) : (presentCommand w s).seq = .idle := rfl
@[simp] theorem presentCommand_settle (w : CommandWord) : (presentCommand w s).settle = .stopped := rfl
@[simp] theorem presentCommand_offsets (w : CommandWord) : (presentCommand w s).offsets = s.offsets := rfl
@[simp] theorem presentCommand_memCapacity (w : CommandWord) : (presentCommand w s).memCapacity = s.memCapacity := rfl
@[simp] theorem presentCommand_hostTime (w : CommandWord) : (presentCommand w s).hostTime = s.hostTime := rfl
@[simp] theorem presentCommand_rst (w : CommandWord) : (presentCommand w s).rst = none := rfl
@[simp] theorem presentCommand_hostQueue (w : CommandWord) : (presentCommand w s).hostQueue = .command w :: s.hostQueue := rfl
@[simp] theorem presentCommand_answers (w : CommandWord) : (presentCommand w s).answers = s.answers := rfl
@[simp] theorem presentCommand_settleExtras (w : CommandWord) : (presentCommand w s).settleExtras = s.settleExtras := rfl
@[simp] theorem presentCommand_soleOwner (w : CommandWord) : (presentCommand w s).soleOwner = s.soleOwner := rfl
@[simp] theorem presentCommand_chips (w : CommandWord) : (presentCommand w s).chips = s.chips := rfl
@[simp] theorem presentCommand_requests (w : CommandWord) : (presentCommand w s).requests = s.requests := rfl
@[simp] theorem presentCommand_responses (w : CommandWord) : (presentCommand w s).responses = s.responses := rfl
@[simp] theorem presentCommand_elapsedMs (w : CommandWord) : (presentCommand w s).elapsedMs = s.elapsedMs := rfl
@[simp] theorem presentCommand_freeDraws (w : CommandWord) : (presentCommand w s).freeDraws = s.freeDraws := rfl

/-! ## applyReset -/

@[simp] theorem applyReset_clockAddr (p : Straps) : (applyReset p s).clockAddr = p.clockAddr := rfl
@[simp] theorem applyReset_memAddr (p : Straps) : (applyReset p s).memAddr = p.memAddr := rfl
@[simp] theorem applyReset_linkOpen (p : Straps) : (applyReset p s).linkOpen = true := rfl
@[simp] theorem applyReset_seq (p : Straps) : (applyReset p s).seq = .idle := rfl
@[simp] theorem applyReset_settle (p : Straps) : (applyReset p s).settle = .stopped := rfl
@[simp] theorem applyReset_offsets (p : Straps) : (applyReset p s).offsets = s.offsets := rfl
@[simp] theorem applyReset_memCapacity (p : Straps) : (applyReset p s).memCapacity = s.memCapacity := rfl
@[simp] theorem applyReset_hostTime (p : Straps) : (applyReset p s).hostTime = s.hostTime := rfl
@[simp] theorem applyReset_rst (p : Straps) : (applyReset p s).rst = none := rfl
@[simp] theorem applyReset_hostQueue (p : Straps) : (applyReset p s).hostQueue = s.hostQueue := rfl
theorem applyReset_none {s : State} (p : Straps) (h : s.outstanding = none) :
    (applyReset p s).chips = s.chips ∧ (applyReset p s).answers = s.answers := by
  simp [applyReset, h]
theorem applyReset_some {s : State} {r : Request} (p : Straps) (h : s.outstanding = some r) :
    (applyReset p s).chips = s.chips.after s.memCapacity false r ∧ (applyReset p s).answers = s.answers.tail := by
  simp [applyReset, h]
@[simp] theorem applyReset_settleExtras (p : Straps) : (applyReset p s).settleExtras = s.settleExtras := rfl
@[simp] theorem applyReset_soleOwner (p : Straps) : (applyReset p s).soleOwner = s.soleOwner := rfl
@[simp] theorem applyReset_requests (p : Straps) : (applyReset p s).requests = s.requests := rfl
@[simp] theorem applyReset_responses (p : Straps) : (applyReset p s).responses = s.responses := rfl
@[simp] theorem applyReset_elapsedMs (p : Straps) : (applyReset p s).elapsedMs = s.elapsedMs := rfl
@[simp] theorem applyReset_freeDraws (p : Straps) : (applyReset p s).freeDraws = s.freeDraws := rfl

end Sys2Proof.Machine
end

