-- ==== Sys2Proof/Laws/Steps.lean ====
section
/-! SUPPORT. What one step of an operation can do, and what running an operation can do, said once: later proofs cite
these and do not unfold `performStep` or `runSteps`. -/

namespace Sys2Proof.Machine

/-! ## One step of an operation -/

/-- The state in which a step's request is out: sent now, or outstanding already. -/
def outgoing (r : Request) (issued : Bool) (s : State) : State := if issued then s else sendRequest r s

@[simp] theorem outgoing_issued (r : Request) (s : State) : outgoing r true s = s := rfl
@[simp] theorem outgoing_fresh (r : Request) (s : State) : outgoing r false s = sendRequest r s := rfl
@[simp] theorem outgoing_answers (r : Request) (b : Bool) (s : State) : (outgoing r b s).answers = s.answers := by
  cases b <;> rfl
@[simp] theorem outgoing_seq (r : Request) (b : Bool) (s : State) : (outgoing r b s).seq = s.seq := by
  cases b <;> rfl
@[simp] theorem outgoing_settle (r : Request) (b : Bool) (s : State) : (outgoing r b s).settle = s.settle := by
  cases b <;> rfl
@[simp] theorem outgoing_responses (r : Request) (b : Bool) (s : State) :
    (outgoing r b s).responses = s.responses := by
  cases b <;> rfl
@[simp] theorem outgoing_chips (r : Request) (b : Bool) (s : State) : (outgoing r b s).chips = s.chips := by
  cases b <;> rfl

theorem transact_ready {s : State} (h : s.transportReady) (r : Request) (issued : Bool) :
    transact r issued s = awaitAnswer r (outgoing r issued s) := by
  simp [transact, h.1, h.2, outgoing]

/-- A step whose check fails does nothing and meets its error. -/
theorem performStep_check {m : MicroOp} {e : OpError} (h : m.check = some e) (issued : Bool) (s : State) :
    performStep m issued s = .failed s e := by
  simp [performStep, h]

/-- The settle wait is not a request. -/
theorem performStep_waitSettle (issued : Bool) (s : State) : performStep .waitSettle issued s = waitSettle s := rfl

/-- The only step that makes no request is the settle wait. -/
theorem eq_waitSettle {m : MicroOp} {s : State} (h : m.request s = none) : m = .waitSettle := by
  cases m <;> first | rfl | cases h

/-- The settle wait while the timer has not elapsed. -/
theorem performStep_settling {s : State} (ho : s.soleOwner = true) (he : s.settleExtras = []) (issued : Bool) :
    performStep .waitSettle issued s = .waiting (startSettle s) := by
  simp [performStep_waitSettle, waitSettle, ho, he]

/-- The settle wait when the timer elapses. -/
theorem performStep_settled {s : State} {e : Nat} {es : List Nat} (ho : s.soleOwner = true)
    (he : s.settleExtras = e :: es) (issued : Bool) :
    performStep .waitSettle issued s = .done (elapseSettle e es (startSettle s)) [] := by
  simp [performStep_waitSettle, waitSettle, ho, he]

/-- The settle wait beside another user of the devices (R226). -/
theorem performStep_settle_shared {s : State} (ho : s.soleOwner = false) (issued : Bool) :
    performStep .waitSettle issued s = .refused .transportShared := by
  simp [performStep_waitSettle, waitSettle, ho]

/-- A step whose request has no answer yet waits. -/
theorem performStep_silent {m : MicroOp} {s : State} {r : Request} (hr : s.transportReady) (hc : m.check = none)
    (hm : m.request s = some r) (ha : s.answers = []) (issued : Bool) :
    performStep m issued s = .waiting (outgoing r issued s) := by
  simp [performStep, hc, hm, transact_ready hr, awaitAnswer, ha]

/-- A step whose request has its answer: what the answer makes of it. -/
theorem performStep_answered {m : MicroOp} {s : State} {r : Request} {a : TransportResponse}
    {rest : List TransportResponse} (hr : s.transportReady) (hc : m.check = none) (hm : m.request s = some r)
    (ha : s.answers = a :: rest) (issued : Bool) :
    performStep m issued s =
      if a.ok then
        match m.receive a.data with
        | .ok out => .done (takeAnswer r a rest (outgoing r issued s)) out
        | .error e => .failed (takeAnswer r a rest (outgoing r issued s)) e
      else .failed (takeAnswer r a rest (outgoing r issued s)) (.transport a.cause m.errorField) := by
  simp only [performStep, hc, hm, transact_ready hr, awaitAnswer, outgoing_answers, ha] <;> rfl

/-- A step that succeeds. -/
theorem performStep_done {m : MicroOp} {s : State} {r : Request} {a : TransportResponse}
    {rest : List TransportResponse} {out : List Byte} (hr : s.transportReady) (hc : m.check = none)
    (hm : m.request s = some r) (ha : s.answers = a :: rest) (hok : a.ok = true) (hd : m.receive a.data = .ok out)
    (issued : Bool) :
    performStep m issued s = .done (takeAnswer r a rest (outgoing r issued s)) out := by
  simp [performStep_answered hr hc hm ha, hok, hd]

/-- A step whose request fails at the transport. -/
theorem performStep_failed {m : MicroOp} {s : State} {r : Request} {a : TransportResponse}
    {rest : List TransportResponse} (hr : s.transportReady) (hc : m.check = none)
    (hm : m.request s = some r) (ha : s.answers = a :: rest) (hok : a.ok = false) (issued : Bool) :
    performStep m issued s =
      .failed (takeAnswer r a rest (outgoing r issued s)) (.transport a.cause m.errorField) := by
  simp [performStep_answered hr hc hm ha, hok]

/-- A step whose delivered byte does not decode. -/
theorem performStep_undecoded {m : MicroOp} {s : State} {r : Request} {a : TransportResponse}
    {rest : List TransportResponse} {e : OpError} (hr : s.transportReady) (hc : m.check = none)
    (hm : m.request s = some r) (ha : s.answers = a :: rest) (hok : a.ok = true) (hd : m.receive a.data = .error e)
    (issued : Bool) :
    performStep m issued s = .failed (takeAnswer r a rest (outgoing r issued s)) e := by
  simp [performStep_answered hr hc hm ha, hok, hd]

/-- What a step is refused for, its check passed (R226, R244). -/
def State.refuses (s : State) : MicroOp → Option Refusal
  | .waitSettle => if s.soleOwner then none else some .transportShared
  | .readField _ | .writeField _ _ | .readTempWhole | .readTempFrac | .sendPointer _ | .sendData _ _ | .readRaw =>
    if s.linkOpen then if s.soleOwner then none else some .transportShared else some .linkNotOpen

/-- A step that is refused. -/
theorem performStep_refused {m : MicroOp} {s : State} {x : Refusal} (hc : m.check = none)
    (hx : s.refuses m = some x) (issued : Bool) : performStep m issued s = .refused x := by
  cases hl : s.linkOpen <;> cases ho : s.soleOwner <;> cases m <;>
    simp_all [State.refuses, performStep, transact, waitSettle, MicroOp.request]

/-- A transport that is ready refuses nothing. -/
theorem refuses_of_ready {s : State} (h : s.transportReady) (m : MicroOp) : s.refuses m = none := by
  cases m <;> simp [State.refuses, h.1, h.2]

/-- Everything one step can do (R60, R143, R249): meet its check's error; wait for the timer, or see it elapse; be
refused; or send its request and wait, succeed, or fail. -/
theorem performStep_cases (m : MicroOp) (issued : Bool) (s : State) :
    (∃ e, m.check = some e ∧ performStep m issued s = .failed s e) ∨
    (m = .waitSettle ∧ s.soleOwner = true ∧ s.settleExtras = [] ∧
      performStep m issued s = .waiting (startSettle s)) ∨
    (∃ e es, m = .waitSettle ∧ s.soleOwner = true ∧ s.settleExtras = e :: es ∧
      performStep m issued s = .done (elapseSettle e es (startSettle s)) []) ∨
    (∃ x, m.check = none ∧ s.refuses m = some x ∧ performStep m issued s = .refused x) ∨
    (∃ r, m.check = none ∧ m.request s = some r ∧ s.transportReady ∧ s.answers = [] ∧
      performStep m issued s = .waiting (outgoing r issued s)) ∨
    (∃ r a rest, m.check = none ∧ m.request s = some r ∧ s.transportReady ∧ s.answers = a :: rest ∧
      ((∃ out, a.ok = true ∧ m.receive a.data = .ok out ∧
          performStep m issued s = .done (takeAnswer r a rest (outgoing r issued s)) out) ∨
        (∃ e, a.ok = true ∧ m.receive a.data = .error e ∧
          performStep m issued s = .failed (takeAnswer r a rest (outgoing r issued s)) e) ∨
        (a.ok = false ∧
          performStep m issued s =
            .failed (takeAnswer r a rest (outgoing r issued s)) (.transport a.cause m.errorField)))) := by
  cases hc : m.check with
  | some e => exact .inl ⟨e, rfl, performStep_check hc issued s⟩
  | none =>
    refine .inr ?_
    cases hm : m.request s with
    | none =>
      obtain rfl := eq_waitSettle hm
      cases ho : s.soleOwner with
      | false =>
        exact .inr (.inr (.inl ⟨_, rfl, by simp [State.refuses, ho], performStep_settle_shared ho issued⟩))
      | true =>
        cases he : s.settleExtras with
        | nil => exact .inl ⟨rfl, rfl, rfl, performStep_settling ho he issued⟩
        | cons e es => exact .inr (.inl ⟨e, es, rfl, rfl, rfl, performStep_settled ho he issued⟩)
    | some r =>
      refine .inr (.inr ?_)
      by_cases hr : s.transportReady
      · refine .inr ?_
        cases ha : s.answers with
        | nil => exact .inl ⟨r, rfl, rfl, hr, rfl, performStep_silent hr hc hm ha issued⟩
        | cons a rest =>
          refine .inr ⟨r, a, rest, rfl, rfl, hr, rfl, ?_⟩
          cases hok : a.ok with
          | false => exact .inr (.inr ⟨rfl, performStep_failed hr hc hm ha hok issued⟩)
          | true =>
            cases hd : m.receive a.data with
            | ok out => exact .inl ⟨out, rfl, rfl, performStep_done hr hc hm ha hok hd issued⟩
            | error e => exact .inr (.inl ⟨e, rfl, rfl, performStep_undecoded hr hc hm ha hok hd issued⟩)
      · refine .inl ?_
        have hx : ∃ x, s.refuses m = some x := by
          cases hl : s.linkOpen <;> cases ho : s.soleOwner <;> cases m <;>
            simp_all [State.refuses, State.transportReady, MicroOp.request]
        obtain ⟨x, hx⟩ := hx
        exact ⟨x, rfl, hx, performStep_refused hc hx issued⟩

/-! ## Running an operation -/

variable {i : Instr} {m : MicroOp} {rest : List MicroOp} {issued : Bool} {got : List Byte} {s s' t : State}

@[simp] theorem runSteps_nil :
    runSteps i [] issued got s = .next (respond (okResponse (operationResult i got)) s) := rfl

theorem runSteps_done {out : List Byte} (h : performStep m issued s = .done s' out) :
    runSteps i (m :: rest) issued got s = runSteps i rest false (got ++ out) s' := by
  simp [runSteps, h]

theorem runSteps_waiting (h : performStep m issued s = .waiting s') :
    runSteps i (m :: rest) issued got s = .next (waitAt { instr := i, got := got, todo := m :: rest } s') := by
  simp [runSteps, h]

theorem runSteps_failed {e : OpError} (h : performStep m issued s = .failed s' e) :
    runSteps i (m :: rest) issued got s = .next (raiseError e s') := by
  simp [runSteps, h]

theorem runSteps_refused {x : Refusal} (h : performStep m issued s = .refused x) :
    runSteps i (m :: rest) issued got s = .refused x := by
  simp [runSteps, h]

/-- A relation between the state before and the state after that every named update has, and that composes, holds of a
run of steps. The requests sent are those of the steps. -/
theorem runSteps_relates {P : State → State → Prop}
    (refl : ∀ s, P s s) (trans : ∀ a b c, P a b → P b c → P a c)
    (send : ∀ (m : MicroOp) s r, m.check = none → m.request s = some r → P s (sendRequest r s))
    (take : ∀ r a rest s, s.answers = a :: rest → P s (takeAnswer r a rest s))
    (start : ∀ s, P s (startSettle s))
    (elapse : ∀ e es s, s.settleExtras = e :: es → P s (elapseSettle e es s))
    (wait : ∀ o s, P s (waitAt o s))
    (resp : ∀ r s, P s (respond r s))
    {todo : List MicroOp} (h : runSteps i todo issued got s = .next t) : P s t := by
  have hout : ∀ (m : MicroOp) s r issued, m.check = none → m.request s = some r → P s (outgoing r issued s) := by
    intro m s r issued hc hm
    cases issued
    · exact send m s r hc hm
    · exact refl s
  induction todo generalizing issued got s with
  | nil => cases h; exact resp _ _
  | cons m rest ih =>
    rcases performStep_cases m issued s with ⟨e, hc, hp⟩ | ⟨hm, ho, he, hp⟩ | ⟨e, es, hm, ho, he, hp⟩ | ⟨x, hc, hx, hp⟩ |
      ⟨r, hc, hm, hr, ha, hp⟩ | ⟨r, a, as, hc, hm, hr, ha, hp⟩
    · rw [runSteps_failed hp] at h; cases h; exact resp _ _
    · rw [runSteps_waiting hp] at h; cases h; exact trans _ _ _ (start s) (wait _ _)
    · rw [runSteps_done hp] at h
      exact trans _ _ _ (trans _ _ _ (start s) (elapse e es _ he)) (ih h)
    · rw [runSteps_refused hp] at h; cases h
    · rw [runSteps_waiting hp] at h; cases h; exact trans _ _ _ (hout m s r issued hc hm) (wait _ _)
    · have ht : P s (takeAnswer r a as (outgoing r issued s)) :=
        trans _ _ _ (hout m s r issued hc hm) (take r a as _ (by simp [ha]))
      rcases hp with ⟨out, _, _, hp⟩ | ⟨e, _, _, hp⟩ | ⟨_, hp⟩
      · rw [runSteps_done hp] at h; exact trans _ _ _ ht (ih h)
      · rw [runSteps_failed hp] at h; cases h; exact trans _ _ _ ht (resp _ _)
      · rw [runSteps_failed hp] at h; cases h; exact trans _ _ _ ht (resp _ _)

/-- How a run of steps ends: with exactly one response and `IDLE`, or `BUSY` with no response, at one of its steps
(R101, R216). -/
theorem runSteps_ends {todo : List MicroOp} (h : runSteps i todo issued got s = .next t) :
    (t.seq = .idle ∧ ∃ r, t.responses = s.responses ++ [r]) ∨
    (∃ o, t.seq = .busy o ∧ o.instr = i ∧ o.todo ≠ [] ∧ o.todo <:+ todo ∧ t.responses = s.responses) := by
  induction todo generalizing issued got s with
  | nil => cases h; exact .inl ⟨rfl, _, rfl⟩
  | cons m rest ih =>
    rcases performStep_cases m issued s with ⟨e, hc, hp⟩ | ⟨hm, ho, he, hp⟩ | ⟨e, es, hm, ho, he, hp⟩ | ⟨x, hc, hx, hp⟩ |
      ⟨r, hc, hm, hr, ha, hp⟩ | ⟨r, a, as, hc, hm, hr, ha, hp⟩
    · rw [runSteps_failed hp] at h; cases h; exact .inl ⟨rfl, _, rfl⟩
    · rw [runSteps_waiting hp] at h; cases h
      exact .inr ⟨_, rfl, rfl, by simp, List.suffix_refl _, rfl⟩
    · rw [runSteps_done hp] at h
      rcases ih h with h | ⟨o, h1, h2, h3, h4, h5⟩
      · exact .inl h
      · exact .inr ⟨o, h1, h2, h3, h4.trans (List.suffix_cons _ _), h5⟩
    · rw [runSteps_refused hp] at h; cases h
    · rw [runSteps_waiting hp] at h; cases h
      exact .inr ⟨_, rfl, rfl, by simp, List.suffix_refl _, by simp⟩
    · rcases hp with ⟨out, _, _, hp⟩ | ⟨e, _, _, hp⟩ | ⟨_, hp⟩
      · rw [runSteps_done hp] at h
        rcases ih h with h | ⟨o, h1, h2, h3, h4, h5⟩
        · exact .inl (by simpa using h)
        · exact .inr ⟨o, h1, h2, h3, h4.trans (List.suffix_cons _ _), by simpa using h5⟩
      · rw [runSteps_failed hp] at h; cases h; exact .inl ⟨rfl, _, by simp; rfl⟩
      · rw [runSteps_failed hp] at h; cases h; exact .inl ⟨rfl, _, by simp; rfl⟩

end Sys2Proof.Machine
end

