-- ==== Sys2Proof/Laws/Machine.lean ====
section
/-! SUPPORT. What executing an operation and taking a step can do, said once. -/

namespace Sys2Proof.Machine

/-- An operation either runs a step sequence, or (the codec) answers at once. -/
theorem exec_cases (i : Instr) (s : State) :
    (∃ plan, exec i s = runSteps i plan false [] s) ∨
    (∃ r n, exec i s = .next (respond r { s with freeDraws := n })) := by
  cases i with
  | bcddec b =>
    refine .inr ?_
    simp only [exec, execBcddec, raiseError]
    split
    · exact ⟨_, s.freeDraws, rfl⟩
    · exact ⟨_, s.freeDraws, rfl⟩
  | bcdenc v =>
    refine .inr ?_
    simp only [exec, execBcdenc]
    split
    · exact ⟨_, s.freeDraws, rfl⟩
    · exact ⟨_, _, rfl⟩
  | rdall c => exact .inl ⟨_, rfl⟩
  | wrall x f => exact .inl ⟨_, rfl⟩
  | wrcomp c f => exact .inl ⟨_, rfl⟩
  | wrnow => exact .inl ⟨_, rfl⟩
  | rdtemp => exact .inl ⟨_, rfl⟩
  | setaddr a => exact .inl ⟨_, rfl⟩
  | mrdb a => exact .inl ⟨_, rfl⟩
  | mwrb a v => exact .inl ⟨_, rfl⟩

variable {s t : State}

/-- While `BUSY` a step goes on with the operation. -/
theorem step_busy {o : Operation} (h0 : s.rst = none) (hs : s.seq = .busy o) :
    step s = runSteps o.instr o.todo true o.got s := by
  simp only [step, h0, hs]
  rfl

theorem idle_or_busy (s : State) : s.seq = .idle ∨ ∃ o, s.seq = .busy o := by
  cases h : s.seq with
  | idle => exact .inl rfl
  | busy o => exact .inr ⟨o, rfl⟩

/-- Every step there is, `RST` not asserted: going on with an operation; or, `IDLE`, nothing, an operation accepted, an
illegal word answered, the host's time changed, or the host's pause. -/
theorem step_cases (h0 : s.rst = none) (h : step s = .next t) :
    (∃ o, s.seq = .busy o ∧ runSteps o.instr o.todo true o.got s = .next t) ∨
    (s.seq = .idle ∧
      ((s.hostQueue = [] ∧ t = s) ∨
        (∃ i rest, exec i { s with hostQueue := rest } = .next t) ∨
        (∃ rest, t = raiseError .illegal { s with hostQueue := rest }) ∨
        (∃ rest v, t = { s with hostQueue := rest, hostTime := v }) ∨
        (∃ rest e, s.soleOwner = true ∧ t = hostPause e { s with hostQueue := rest }))) := by
  rcases idle_or_busy s with hs | ⟨o, hs⟩
  · have h : hostStep s = .next t := by simpa only [step, h0, hs] using h
    refine .inr ⟨hs, ?_⟩
    simp only [hostStep] at h
    split at h
    · next hq => cases h; exact .inl ⟨hq, rfl⟩
    · simp only [acceptCommand] at h
      split at h
      · exact .inr (.inl ⟨_, _, h⟩)
      · cases h; exact .inr (.inr (.inl ⟨_, rfl⟩))
    · cases h; exact .inr (.inr (.inr (.inl ⟨_, _, rfl⟩)))
    · simp only [pauseCommand] at h
      split at h
      · cases h
      · next ho =>
        cases h
        exact .inr (.inr (.inr (.inr ⟨_, _, by simpa using ho, rfl⟩)))
  · rw [step_busy h0 hs] at h
    exact .inl ⟨o, hs, h⟩

/-- A state that a step leaves as it is stays as it is for any number of steps. -/
theorem run_of_step_fixed (M : Host.Core) (s : M.State) (n : Nat) (h : M.step s = .next s) : M.run n s = .next s := by
  induction n with
  | zero => rfl
  | succ n ih =>
    rw [Host.Core.run, h]
    exact ih

end Sys2Proof.Machine
end

