-- ==== Sys2Proof/Laws/Memory.lean ====
section
/-! SUPPORT. The laws of the byte stores: every operation keeps the canonical form and the bound on addresses, a read
after a write, and that a write or a forget leaves every other address alone. -/

namespace Sys2Proof.Machine

theorem Memory.read_write_same (m : Memory) (a : Nat) (b : Byte) :
    Memory.read (Memory.write m a b) a = some b := by
  induction m with
  | nil => simp [Memory.write, Memory.read]
  | cons c m ih =>
    unfold Memory.write
    split
    · simp [Memory.read]
    · split
      · simp [Memory.read]
      · next h1 h2 => simp [Memory.read, ih, Ne.symm h2]

theorem Memory.read_write_other (m : Memory) {a x : Nat} (b : Byte) (h : x ≠ a) :
    Memory.read (Memory.write m a b) x = Memory.read m x := by
  induction m with
  | nil => simp [Memory.write, Memory.read, Ne.symm h]
  | cons c m ih =>
    unfold Memory.write
    split
    · simp [Memory.read, Ne.symm h]
    · split
      · next h1 h2 => subst h2; simp [Memory.read, Ne.symm h]
      · simp [Memory.read, ih]

theorem Memory.read_forget_same (m : Memory) (a : Nat) : Memory.read (Memory.forget m a) a = none := by
  induction m with
  | nil => rfl
  | cons c m ih =>
    simp only [Memory.forget, List.filter_cons] at ih ⊢
    split
    · next h => simp only [Memory.read, ih]; simp_all
    · exact ih

theorem Memory.read_forget_other (m : Memory) {a x : Nat} (h : x ≠ a) :
    Memory.read (Memory.forget m a) x = Memory.read m x := by
  induction m with
  | nil => rfl
  | cons c m ih =>
    simp only [Memory.forget, List.filter_cons] at ih ⊢
    split
    · simp [Memory.read, ih]
    · next hc =>
      have hc' : c.1 = a := by simpa using hc
      simp [Memory.read, ih, hc', Ne.symm h]

/-- An address listed after a write was listed before, or is the one written. -/
theorem Memory.mem_write {m : Memory} {a : Nat} {b : Byte} {c : Host.Cell} (h : c ∈ Memory.write m a b) :
    c = (a, b) ∨ c ∈ m := by
  induction m with
  | nil => simpa [Memory.write] using h
  | cons d m ih =>
    unfold Memory.write at h
    split at h
    · simpa using h
    · split at h
      · rcases List.mem_cons.mp h with h | h
        · exact .inl h
        · exact .inr (List.mem_cons_of_mem _ h)
      · rcases List.mem_cons.mp h with h | h
        · exact .inr (by simp [h])
        · exact (ih h).imp id (List.mem_cons_of_mem _)

theorem Memory.write_wf {m : Memory} (h : Memory.wf m) (a : Nat) (b : Byte) : Memory.wf (Memory.write m a b) := by
  induction m with
  | nil => simp [Memory.write, Memory.wf]
  | cons c m ih =>
    obtain ⟨hc, hm⟩ := List.pairwise_cons.mp h
    unfold Memory.write
    split
    · next ha =>
      refine List.pairwise_cons.mpr ⟨fun d hd => ?_, h⟩
      rcases List.mem_cons.mp hd with rfl | hd
      · exact ha
      · exact Nat.lt_trans ha (hc d hd)
    · split
      · next ha => exact List.pairwise_cons.mpr ⟨fun d hd => ha ▸ hc d hd, hm⟩
      · next h1 h2 =>
        refine List.pairwise_cons.mpr ⟨fun d hd => ?_, ih hm⟩
        rcases Memory.mem_write hd with rfl | hd
        · show c.1 < a; omega
        · exact hc d hd

theorem Memory.forget_wf {m : Memory} (h : Memory.wf m) (a : Nat) : Memory.wf (Memory.forget m a) :=
  List.Pairwise.filter _ h

theorem Memory.empty_wf : Memory.wf [] := List.Pairwise.nil

/-- The bound on a store's addresses. -/
abbrev Memory.below (n : Nat) (m : Memory) : Prop := ∀ c ∈ m, c.1 < n

theorem Memory.write_below {m : Memory} {n a : Nat} (h : Memory.below n m) (ha : a < n) (b : Byte) :
    Memory.below n (Memory.write m a b) := fun c hc => by
  rcases Memory.mem_write hc with rfl | hc
  · exact ha
  · exact h c hc

theorem Memory.forget_below {m : Memory} {n : Nat} (h : Memory.below n m) (a : Nat) :
    Memory.below n (Memory.forget m a) := fun c hc => h c (List.mem_filter.mp hc).1

/-- Both stores of the chips are canonical and within their address spaces. -/
structure Chips.Canonical (c : Chips) : Prop where
  clockWf : Memory.wf c.clock
  clockBound : Memory.below 256 c.clock
  memWf : Memory.wf c.mem
  memBound : Memory.below 65536 c.mem

/-- Every transport request keeps the chips' stores canonical, however it ends. -/
theorem Chips.Canonical.after {c : Chips} (h : c.Canonical) (capacity : Nat) (ok : Bool) (r : Request) :
    (c.after capacity ok r).Canonical := by
  obtain ⟨h1, h2, h3, h4⟩ := h
  cases r with
  | wrreg d g v =>
    cases ok
    · exact ⟨Memory.forget_wf h1 _, Memory.forget_below h2 _, h3, h4⟩
    · exact ⟨Memory.write_wf h1 _ _, Memory.write_below h2 g.isLt _, h3, h4⟩
  | rdreg d g => exact ⟨h1, h2, h3, h4⟩
  | rdraw d => exact ⟨h1, h2, h3, h4⟩
  | wrblk d hi lo v =>
    cases v with
    | none =>
      refine ⟨h1, h2, ?_, ?_⟩ <;> simp only [Chips.after] <;> split <;>
        first
          | exact Memory.empty_wf
          | exact h3
          | exact h4
          | simp [Memory.below]
    | some v =>
      refine ⟨h1, h2, ?_, ?_⟩ <;> simp only [Chips.after, Chips.memAfterWrite] <;> split <;> [skip; split; skip; split]
      · exact Memory.empty_wf
      · exact Memory.write_wf h3 _ _
      · exact Memory.forget_wf h3 _
      · simp [Memory.below]
      · exact Memory.write_below h4 (pointerAddress hi lo).isLt _
      · exact Memory.forget_below h4 _

end Sys2Proof.Machine
end

