-- ==== Sys2Proof/Laws/PerInstr.lean ====
section
/-! SUPPORT. Statements made of every instruction as syntax, one lemma for each constructor of `Instr`. -/

/-- The word of an operation carries, in CW[71:64], the opcode byte the table of R96 gives it. -/
def Sys2Proof.Laws.OpcodeByte.Statement (i : Sys2Proof.Instr) : Prop :=
  Sys2Proof.opcodeByte (Sys2Proof.encode i) = i.opcode

namespace Sys2Proof.Laws

theorem OpcodeByte.bcddec (b : Byte) : OpcodeByte.Statement (.bcddec b) := (encodeB_parts _ _).1
theorem OpcodeByte.bcdenc (v : Byte) : OpcodeByte.Statement (.bcdenc v) := (encodeB_parts _ _).1
theorem OpcodeByte.rdall (century : Byte) : OpcodeByte.Statement (.rdall century) := (encodeB_parts _ _).1
theorem OpcodeByte.wrall (x : Byte) (f : FieldBytes) : OpcodeByte.Statement (.wrall x f) := (encodeF_parts _ _ _).1
theorem OpcodeByte.wrcomp (century : Byte) (f : FieldBytes) : OpcodeByte.Statement (.wrcomp century f) :=
  (encodeF_parts _ _ _).1
theorem OpcodeByte.wrnow : OpcodeByte.Statement .wrnow := (encodeZ_parts _).1
theorem OpcodeByte.rdtemp : OpcodeByte.Statement .rdtemp := (encodeZ_parts _).1
theorem OpcodeByte.setaddr (addr : LinearAddress) : OpcodeByte.Statement (.setaddr addr) := (encodeA_parts _ _ _).1
theorem OpcodeByte.mrdb (addr : LinearAddress) : OpcodeByte.Statement (.mrdb addr) := (encodeA_parts _ _ _).1
theorem OpcodeByte.mwrb (addr : LinearAddress) (val : Byte) : OpcodeByte.Statement (.mwrb addr val) :=
  (encodeA_parts _ _ _).1

end Sys2Proof.Laws
end

