-- ==== Sys2Proof/Laws/Runs.lean ====
section
/-! SUPPORT. Runs of several field reads or field writes that all succeed, as one equation each: the operation goes on
with the rest of its steps from a state that is given whole. -/

namespace Sys2Proof.Machine

theorem TimeField.receive_readField {k : TimeField} {d v : Byte} (h : fieldDecode k d = some v) :
    MicroOp.receive d (.readField k) = .ok [v] := by
  simp [MicroOp.receive, h]

/-- The range check, as the two bounds. -/
theorem fieldInRange_iff (k : TimeField) (v : Byte) :
    fieldInRange k v = true ↔ fieldLo k ≤ v.toNat ∧ v.toNat ≤ fieldHi k := by
  simp [fieldInRange]

theorem check_writeField {k : TimeField} {v : Byte} (h : fieldLo k ≤ v.toNat ∧ v.toNat ≤ fieldHi k) :
    (MicroOp.writeField k v).check = none := by
  simp [MicroOp.check, (fieldInRange_iff k v).2 h]

theorem check_writeField_out {k : TimeField} {v : Byte} (h : v.toNat < fieldLo k ∨ fieldHi k < v.toNat) :
    (MicroOp.writeField k v).check = some (.range k) := by
  have : fieldInRange k v = false := by
    rw [Bool.eq_false_iff]
    intro hv
    have := (fieldInRange_iff k v).1 hv
    omega
  simp [MicroOp.check, this]

/-- A run of field reads that all succeed with bytes that decode. -/
theorem runSteps_reads {i : Instr} {a : TimeField → TransportResponse} {v : TimeField → Byte}
    {tail : List MicroOp} {rest : List TransportResponse} (ks : List TimeField) (got : List Byte) (s : State)
    (hr : s.transportReady) (hk : ∀ k ∈ ks, (a k).ok = true ∧ fieldDecode k (a k).data = some (v k))
    (ha : s.answers = ks.map a ++ rest) :
    runSteps i (ks.map .readField ++ tail) false got s =
      runSteps i tail false (got ++ ks.map v)
        { s with answers := rest, requests := s.requests ++ ks.map (fieldReadRequest s) } := by
  induction ks generalizing got s with
  | nil =>
    simp only [List.map_nil, List.nil_append] at ha
    simp [← ha]
  | cons k ks ih =>
    obtain ⟨hok, hd⟩ := hk k (by simp)
    have hp := performStep_done (m := .readField k) (r := fieldReadRequest s k) hr rfl rfl
      (by simpa using ha) hok (TimeField.receive_readField hd) false
    rw [List.map_cons, List.cons_append, runSteps_done hp]
    refine (ih (got ++ [v k]) _ ?ready (fun j hj => hk j (by simp [hj])) rfl).trans ?_
    case ready => exact hr
    simp [takeAnswer, sendRequest, Chips.after, fieldReadRequest]
    rfl

/-- A run of field writes that are all in range and all succeed. -/
theorem runSteps_writes {i : Instr} {a : TimeField → TransportResponse} {f : FieldBytes}
    {tail : List MicroOp} {rest : List TransportResponse} (ks : List TimeField) (got : List Byte) (s : State)
    (hr : s.transportReady)
    (hk : ∀ k ∈ ks, fieldLo k ≤ (f.get k).toNat ∧ (f.get k).toNat ≤ fieldHi k ∧ (a k).ok = true)
    (ha : s.answers = ks.map a ++ rest) :
    runSteps i (ks.map (fun k => .writeField k (f.get k)) ++ tail) false got s =
      runSteps i tail false got
        { s with
          answers := rest
          requests := s.requests ++ ks.map (fieldWriteRequest s f)
          chips := { s.chips with clock := clockAfterWrites s f ks } } := by
  induction ks generalizing got s with
  | nil =>
    simp only [List.map_nil, List.nil_append] at ha
    simp [← ha, clockAfterWrites]
  | cons k ks ih =>
    obtain ⟨h1, h2, hok⟩ := hk k (by simp)
    have hp := performStep_done (m := .writeField k (f.get k)) (r := fieldWriteRequest s f k) hr
      (check_writeField ⟨h1, h2⟩) rfl (by simpa using ha) hok rfl false
    rw [List.map_cons, List.cons_append, runSteps_done hp]
    refine (ih (got ++ []) _ ?ready (fun j hj => hk j (by simp [hj])) rfl).trans ?_
    case ready => exact hr
    simp [takeAnswer, sendRequest, Chips.after, fieldWriteRequest, hok, clockAfterWrites]
    rfl

/-- Running an operation does not read the sequencer: a `BUSY` state runs like the state it was made from. -/
theorem runSteps_waitAt {i : Instr} {todo : List MicroOp} {b : Bool} {got : List Byte} {s : State} (o : Operation) :
    runSteps i todo b got (waitAt o s) = runSteps i todo b got s := by
  induction todo generalizing s got b with
  | nil => rfl
  | cons m rest ih =>
    have hrq : m.request (waitAt o s) = m.request s := by cases m <;> rfl
    have hout : ∀ r, outgoing r b (waitAt o s) = waitAt o (outgoing r b s) := by
      intro r
      cases b <;> rfl
    rcases performStep_cases m b s with ⟨e, hc, hp⟩ | ⟨hm, ho, he, hp⟩ | ⟨e, xs, hm, ho, he, hp⟩ | ⟨x, hc, hx, hp⟩ |
      ⟨r, hc, hm, hr, ha, hp⟩ | ⟨r, a, xs, hc, hm, hr, ha, hp⟩
    · rw [runSteps_failed hp, runSteps_failed (performStep_check hc b _)]
      rfl
    · subst hm
      rw [runSteps_waiting hp, runSteps_waiting (performStep_settling (s := waitAt o s) ho he b)]
      rfl
    · subst hm
      rw [runSteps_done hp, runSteps_done (performStep_settled (s := waitAt o s) ho he b)]
      exact ih (s := elapseSettle e xs (startSettle s))
    · have hw : (waitAt o s).refuses m = some x := by
        rw [← hx]
        cases m <;> rfl
      rw [runSteps_refused hp, runSteps_refused (performStep_refused hc hw b)]
    · have hw := performStep_silent (s := waitAt o s) hr hc (hrq ▸ hm) ha b
      rw [runSteps_waiting hp, runSteps_waiting hw, hout]
      rfl
    · rcases hp with ⟨out, ok, hd, hp⟩ | ⟨e, ok, hd, hp⟩ | ⟨ok, hp⟩
      · have hw := performStep_done (s := waitAt o s) hr hc (hrq ▸ hm) ha ok hd b
        rw [runSteps_done hp, runSteps_done hw, hout]
        exact ih (s := takeAnswer r a xs (outgoing r b s))
      · have hw := performStep_undecoded (s := waitAt o s) hr hc (hrq ▸ hm) ha ok hd b
        rw [runSteps_failed hp, runSteps_failed hw, hout]
        rfl
      · have hw := performStep_failed (s := waitAt o s) hr hc (hrq ▸ hm) ha ok b
        rw [runSteps_failed hp, runSteps_failed hw, hout]
        rfl

/-- A request that is out already is not sent again: going on from the state in which it is out is running the step. -/
theorem runSteps_outgoing {i : Instr} {m : MicroOp} {rest : List MicroOp} {b : Bool} {got : List Byte} {r : Request}
    {s : State} (hr : s.transportReady) (hc : m.check = none) (hm : m.request s = some r) :
    runSteps i (m :: rest) true got (outgoing r b s) = runSteps i (m :: rest) b got s := by
  have hro : (outgoing r b s).transportReady := by cases b <;> exact hr
  have hmo : m.request (outgoing r b s) = some r := by
    rw [← hm]
    cases b <;> cases m <;> rfl
  have : performStep m true (outgoing r b s) = performStep m b s := by
    simp only [performStep, hc, hm, hmo, transact_ready hr, transact_ready hro, outgoing_issued]
  simp only [runSteps, this]

end Sys2Proof.Machine
end

