-- ==== Sys2Proof/Machine/TestDouble.lean ====
section
/-! DEFINITION. The reference test double of spec/95_test_vectors.md section 3: one possible environment, for tests only
(R41). The machine does not use it; it keeps its own contents and answers the block's requests. -/

namespace Sys2Proof.Machine

/-- `CLOCK_ADDR` of the double. -/
def doubleClockAddr : Byte := 0x68

/-- `MEM_ADDR` of the double, "a value picked for the tests". -/
def doubleMemAddr : Byte := 0x57

/-- The double's arrays, as stores over a byte that every unlisted cell holds, and its pointer. -/
structure TestDouble where
  clk : Memory
  mem : Memory
  fill : Byte
  ptr : LinearAddress
  deriving DecidableEq, Repr

/-- A request that succeeds, delivering `d`. -/
def doubleOk (d : Byte) : TransportResponse := { ok := true, cause := 0, data := d }

/-- "Requests to any other device address fail with `NACK`." -/
def doubleNack : TransportResponse := { ok := false, cause := 0, data := 0 }

/-- The double's answer to one request, and the double after it. -/
def TestDouble.answer (d : TestDouble) : Request → TransportResponse × TestDouble
  | .wrreg dev r v =>
    if dev = doubleClockAddr then (doubleOk 0, { d with clk := Memory.write d.clk r.toNat v }) else (doubleNack, d)
  | .rdreg dev r =>
    if dev = doubleClockAddr then (doubleOk ((Memory.read d.clk r.toNat).getD d.fill), d) else (doubleNack, d)
  | .rdraw dev =>
    if dev = doubleMemAddr then (doubleOk ((Memory.read d.mem d.ptr.toNat).getD d.fill), d) else (doubleNack, d)
  | .wrblk dev h l none =>
    if dev = doubleMemAddr then (doubleOk 0, { d with ptr := pointerAddress h l }) else (doubleNack, d)
  | .wrblk dev h l (some v) =>
    if dev = doubleMemAddr then
      (doubleOk 0,
        { d with ptr := pointerAddress h l, mem := Memory.write d.mem (pointerAddress h l).toNat v })
    else (doubleNack, d)

/-- The next answer of the environment made of the double: to the outstanding request, or the settle timer elapsing
exactly `T_SETTLE` after its start. -/
def TestDouble.supply (d : TestDouble) (s : State) : State × TestDouble :=
  match s.outstanding with
  | some r => ({ s with answers := s.answers ++ [(d.answer r).1] }, (d.answer r).2)
  | none =>
    match s.settle with
    | .running => ({ s with settleExtras := s.settleExtras ++ [0] }, d)
    | .stopped => (s, d)

/-- `n` steps of the block, the double supplying each answer the block waits for; stops where a step does. -/
def TestDouble.run : Nat → TestDouble → State → State × TestDouble
  | 0, d, s => (s, d)
  | n + 1, d, s =>
    match step (d.supply s).1 with
    | .next s' => TestDouble.run n (d.supply s).2 s'
    | .fault _ => (s, d)
    | .refused _ => (s, d)

end Sys2Proof.Machine
end

