-- ==== Sys2Proof/Tests/Slice0.lean ====
section
/-! SUPPORT. The model's own tests. Expected values come from the tables of spec/95_test_vectors.md (the section stands
in each comment) or are worked out by hand from the format tables of spec/30_encoding.md. The second part has, for each
obligation with hypotheses, a concrete state and operands that meet them. -/

namespace Sys2Proof.Tests

open Sys2Proof.Machine

/-! ## A small bench -/

/-- A block with the strap value of the spec's test double (95 section 3), a device of 4096 bytes, no write cycle. -/
def bench : State :=
  { State.reset with
    memAddr := 0x57
    memCapacity := 4096
    chips := { clock := [], mem := [], ptr := none, writeCycle := false } }

/-- A transport answer that delivers `b`. -/
def gives (b : Byte) : TransportResponse := { ok := true, cause := 0, data := b }

/-- A transport answer to a write that succeeds. -/
def ack : TransportResponse := gives 0

/-- A transport failure with cause `c`. -/
def fails (c : BitVec 2) : TransportResponse := { ok := false, cause := c, data := 0 }

/-- The bench with answers to come, and one settle time. -/
def withAnswers (as : List TransportResponse) : State := { bench with answers := as, settleExtras := [0] }

/-- A block waiting for the answer to the first read of RDTEMP. -/
def waiting : State :=
  { bench with
    seq := .busy { instr := .rdtemp, got := [], todo := [.readTempWhole, .readTempFrac] }
    requests := [.rdreg 0x68 0x11] }

/-- A block waiting for the settle timer, the transfer made. -/
def settling : State :=
  { bench with
    seq := .busy { instr := .mwrb 5 200, got := [], todo := [.waitSettle] }
    settle := .running
    chips := { clock := [], mem := [(5, 200)], ptr := none, writeCycle := true } }

/-- A block waiting for the answer to MWRB's data write, with answers and settle times to come. -/
def sending (as : List TransportResponse) (es : List Nat) : State :=
  { bench with
    seq := .busy { instr := .mwrb 5 200, got := [], todo := [.sendData 5 200, .waitSettle] }
    answers := as
    settleExtras := es
    requests := [.wrblk 0x57 0x00 0x05 (some 200)] }

/-- The requests, the responses and whether the block is `IDLE` after an outcome; none where it is no next state. -/
def view : Host.Outcome State Fault Refusal → Option (List Request × List Response × Bool)
  | .next t => some (t.requests, t.responses, decide (t.seq = .idle))
  | .fault _ => none
  | .refused _ => none

/-- `OK` with a result. -/
def okWith (r : Result) : Response := { st := .ok, te := 0, ef := none, res := some r }

/-- Field values in the order of R11. -/
def fields (s m h w d mo y : Byte) : FieldBytes :=
  { sec := s, min := m, hour := h, wday := w, dom := d, month := mo, year := y }

/-! ## Well-formedness: the one check, refused -/

theorem test_wellFormed_refuses_reserved_mask_bit :
    (Instr.wrall 0x80 (fields 0 0 0 0 0 0 0)).wellFormed = false ∧
      (Instr.wrall 0xFF (fields 5 38 17 2 10 11 26)).wellFormed = false ∧
      (Instr.wrall 0x7F (fields 5 38 17 2 10 11 26)).wellFormed = true := by decide

/-! ## Decoding, a word for every constructor (95 sections 2 and 4, or written out from R91 to R94) -/

theorem test_decode_bcddec : decode 0x010000000000000029#72 = .command (.bcddec 0x29) := by decide
theorem test_decode_bcdenc : decode 0x02000000000000001D#72 = .command (.bcdenc 29) := by decide
theorem test_decode_rdall : decode 0x1000000000000000FF#72 = .command (.rdall 255) := by decide
theorem test_decode_wrall :
    decode 0x11481A000002000000#72 = .command (.wrall 0x48 (fields 0 0 0 2 0 0 26)) := by decide
theorem test_decode_wrcomp :
    decode 0x121500021D09173B3B#72 = .command (.wrcomp 21 (fields 59 59 23 9 29 2 0)) := by decide
theorem test_decode_wrnow : decode 0x130000000000000000#72 = .command .wrnow := by decide
theorem test_decode_rdtemp : decode 0x140000000000000000#72 = .command .rdtemp := by decide
theorem test_decode_setaddr : decode 0x200000000000001000#72 = .command (.setaddr 4096) := by decide
theorem test_decode_mrdb : decode 0x21000000000000FFFF#72 = .command (.mrdb 65535) := by decide
theorem test_decode_mwrb : decode 0x22000000000000FFFF#72 = .command (.mwrb 65535 0) := by decide

/-- 95 sections 2.1, 2.4, 2.7, 2.8: the illegal words. -/
theorem test_decode_illegal_words :
    decode 0x000000000000000000#72 = .illegal (.reservedOpcode 0x00) ∧
    decode 0x030000000000000000#72 = .illegal (.reservedOpcode 0x03) ∧
    decode 0x150000000000000000#72 = .illegal (.reservedOpcode 0x15) ∧
    decode 0x230000000000000000#72 = .illegal (.reservedOpcode 0x23) ∧
    decode 0xFFFFFFFFFFFFFFFFFF#72 = .illegal (.reservedOpcode 0xFF) ∧
    decode 0x130000000000000001#72 = .illegal (.reservedBits 0x13) ∧
    decode 0x148000000000000000#72 = .illegal (.reservedBits 0x14) ∧
    decode 0x100000000000000115#72 = .illegal (.reservedBits 0x10) ∧
    decode 0x20000000000001012C#72 = .illegal (.reservedBits 0x20) ∧
    decode 0x220000000001C80005#72 = .illegal (.reservedBits 0x22) ∧
    decode 0x010000000000000159#72 = .illegal (.reservedBits 0x01) ∧
    decode 0x210000000000010005#72 = .illegal (.reservedBits 0x21) ∧
    decode 0x11FF1A0B0A02112605#72 = .illegal (.reservedBits 0x11) := by decide

/-- 95 sections 2.4, 2.5, 2.7: the encoder on the vectors. -/
theorem test_encode_vectors :
    encode (.wrall 5 (fields 30 0 99 0 0 0 0)) = 0x11050000000063001E#72 ∧
    encode (.wrcomp 20 (fields 0 0 0 0 31 12 99)) = 0x1214630C1F00000000#72 ∧
    encode (.mrdb 32768) = 0x210000000000008000#72 ∧ encode (.mwrb 5 200) = 0x220000000000C80005#72 := by decide

/-! ## The codec (95 section 2.1) -/

theorem test_bcddec_valid_bytes :
    view (exec (.bcddec 0x80) bench) = some ([], [okWith (.val 80)], true) ∧
    view (exec (.bcddec 0x99) bench) = some ([], [okWith (.val 99)], true) ∧
    view (exec (.bcddec 0x64) bench) = some ([], [okWith (.val 64)], true) := by decide

theorem test_bcddec_rejects :
    (exec (.bcddec 0x0A) bench |> view) =
      some ([], [{ st := .undefinedDecodeError, te := 0, ef := none, res := none }], true) ∧
    (exec (.bcddec 0xA0) bench |> view) =
      some ([], [{ st := .undefinedDecodeError, te := 0, ef := none, res := none }], true) := by decide

theorem test_bcdenc_vectors :
    view (exec (.bcdenc 9) bench) = some ([], [okWith (.bcd 0x09)], true) ∧
    view (exec (.bcdenc 10) bench) = some ([], [okWith (.bcd 0x10)], true) ∧
    view (exec (.bcdenc 99) bench) = some ([], [okWith (.bcd 0x99)], true) := by decide

/-! ## The Clock Register Model -/

/-- 95 section 2.2: the field read pipeline. -/
theorem test_field_decode_vectors :
    fieldDecode .sec 0x80 = some 0 ∧ fieldDecode .sec 0xD9 = some 59 ∧ fieldDecode .sec 0x7A = none ∧
    fieldDecode .sec 0xFF = none ∧ fieldDecode .min 0x75 = some 75 ∧ fieldDecode .hour 0x64 = some 0 ∧
    fieldDecode .hour 0x40 = some 0 ∧ fieldDecode .hour 0x24 = some 24 ∧ fieldDecode .hour 0xE4 = some 24 ∧
    fieldDecode .hour 0x63 = some 23 ∧ fieldDecode .hour 0xA3 = some 23 ∧ fieldDecode .hour 0x52 = some 12 ∧
    fieldDecode .hour 0x3A = none ∧ fieldDecode .wday 0 = some 0 ∧ fieldDecode .dom 0x3F = none ∧
    fieldDecode .month 0x92 = some 92 ∧ fieldDecode .year 0x99 = some 99 := by decide

/-- 95 section 2.5: `iso_weekday`. -/
theorem test_iso_weekday_vectors :
    isoWeekday 2000 1 1 = 6 ∧ isoWeekday 2000 2 29 = 2 ∧ isoWeekday 2000 12 31 = 7 ∧ isoWeekday 2001 1 1 = 1 ∧
    isoWeekday 1900 1 1 = 1 ∧ isoWeekday 1999 12 31 = 5 ∧ isoWeekday 2024 2 29 = 4 ∧ isoWeekday 2026 1 1 = 4 ∧
    isoWeekday 2026 2 28 = 6 ∧ isoWeekday 2026 3 1 = 7 ∧ isoWeekday 2026 11 10 = 2 ∧ isoWeekday 2099 12 31 = 4 ∧
    isoWeekday 2100 3 1 = 1 ∧ isoWeekday 2023 2 31 = 5 := by decide

/-- 95 section 2.5: `full_year` and its 16-bit pattern. -/
theorem test_full_year_vectors :
    BitVec.ofInt 16 (fullYear 21 26) = 0x07EA ∧ BitVec.ofInt 16 (fullYear 21 99) = 0x0833 ∧
    BitVec.ofInt 16 (fullYear 20 99) = 0x07CF ∧ BitVec.ofInt 16 (fullYear 1 0) = 0 ∧
    BitVec.ofInt 16 (fullYear 0 0) = 0xFF9C ∧ BitVec.ofInt 16 (fullYear 0 99) = 0xFFFF ∧
    BitVec.ofInt 16 (fullYear 255 99) = 0x639B := by decide

/-- 95 section 4, program 1, command 2. -/
theorem test_rdall_answers :
    view (exec (.rdall 21)
        (withAnswers [gives 0x05, gives 0x38, gives 0x17, gives 0x02, gives 0x10, gives 0x11, gives 0x26])) =
      some
        ([.rdreg 0x68 0, .rdreg 0x68 1, .rdreg 0x68 2, .rdreg 0x68 3, .rdreg 0x68 4, .rdreg 0x68 5, .rdreg 0x68 6],
          [okWith (.dateTime { fields := fields 5 38 17 2 10 11 26, cent := 21, fullYear := 2026 })], true) := by
  decide

/-- R215: a minutes byte with a bad nibble and a year read that would fail. -/
theorem test_rdall_stops_at_first_bad_field :
    view (exec (.rdall 21) (withAnswers [gives 0, gives 0x7A, gives 0, gives 0, gives 0, gives 0, fails 0])) =
      some ([.rdreg 0x68 0, .rdreg 0x68 1],
        [{ st := .undefinedDecodeError, te := 0, ef := some .min, res := none }], true) := by decide

/-- 95 section 2.4: `WRALL sec=30, hour=99`, and `wday=2, year=26` (year before weekday). -/
theorem test_wrall_no_rollback_and_order :
    view (exec (.wrall 5 (fields 30 0 99 0 0 0 0)) (withAnswers [ack, ack])) =
      some ([.wrreg 0x68 0 0x30], [{ st := .rangeError, te := 0, ef := some .hour, res := none }], true) ∧
    view (exec (.wrall 0x48 (fields 0 0 0 2 0 0 26)) (withAnswers [ack, ack])) =
      some ([.wrreg 0x68 6 0x26, .wrreg 0x68 3 0x02], [okWith .empty], true) := by decide

/-- 95 section 2.4: no field; an absent field's byte; the second write fails with `NACK`. -/
theorem test_wrall_absent_fields_and_failure :
    view (exec (.wrall 0 (fields 0 0 0 0 0 0 0)) bench) = some ([], [okWith .empty], true) ∧
    view (exec (.wrall 1 (fields 5 0 0xEE 0 0 0 0)) (withAnswers [ack])) =
      some ([.wrreg 0x68 0 0x05], [okWith .empty], true) ∧
    view (exec (.wrall 3 (fields 30 15 0 0 0 0 0)) (withAnswers [ack, fails 0])) =
      some ([.wrreg 0x68 0 0x30, .wrreg 0x68 1 0x15],
        [{ st := .transportError, te := 0, ef := some .min, res := none }], true) := by decide

/-- 95 section 2.5: 2000-02-29 23:59:59, the composite's weekday byte 9 ignored. -/
theorem test_wrcomp_computes_weekday :
    view (exec (.wrcomp 21 (fields 59 59 23 9 29 2 0)) (withAnswers [ack, ack, ack, ack, ack, ack, ack])) =
      some
        ([.wrreg 0x68 0 0x59, .wrreg 0x68 1 0x59, .wrreg 0x68 2 0x23, .wrreg 0x68 6 0x00, .wrreg 0x68 5 0x02,
            .wrreg 0x68 4 0x29, .wrreg 0x68 3 0x02],
          [okWith .empty], true) := by decide

/-- 95 section 2.5: month 13: four writes, then `RangeError`, `EF` = 5. -/
theorem test_wrcomp_range_error :
    view (exec (.wrcomp 21 (fields 0 0 0 0 1 13 0)) (withAnswers [ack, ack, ack, ack, ack])) =
      some ([.wrreg 0x68 0 0, .wrreg 0x68 1 0, .wrreg 0x68 2 0, .wrreg 0x68 6 0],
        [{ st := .rangeError, te := 0, ef := some .month, res := none }], true) := by decide

/-- R155: `HOSTTIME` = 0x151A0B0A00112605 behaves as the example of R152. -/
theorem test_wrnow_writes_host_time :
    view (exec .wrnow
        { withAnswers [ack, ack, ack, ack, ack, ack, ack] with hostTime := 0x151A0B0A00112605 }) =
      some
        ([.wrreg 0x68 0 0x05, .wrreg 0x68 1 0x38, .wrreg 0x68 2 0x17, .wrreg 0x68 6 0x26, .wrreg 0x68 5 0x11,
            .wrreg 0x68 4 0x10, .wrreg 0x68 3 0x02],
          [okWith .empty], true) := by decide

/-- 95 section 2.6: the temperature vectors. -/
theorem test_temperature_vectors :
    tempQ 0x19 0x40 = 101 ∧ tempQ 0x19 0x7F = 101 ∧ tempQ 0x19 0x3F = 100 ∧ tempQ 0x7F 0xC0 = 511 ∧
    tempQ 0x80 0x00 = 512 ∧ tempQ 0xF6 0x80 = 986 ∧ tempQ 0xFF 0xC0 = 1023 := by decide

theorem test_rdtemp_answers :
    view (exec .rdtemp (withAnswers [gives 0x19, gives 0x40])) =
      some ([.rdreg 0x68 0x11, .rdreg 0x68 0x12], [okWith (.tempq 101)], true) ∧
    view (exec .rdtemp (withAnswers [fails 2, ack])) =
      some ([.rdreg 0x68 0x11], [{ st := .transportError, te := 2, ef := none, res := none }], true) := by decide

/-! ## The Paged Memory Addressor (95 sections 2.7 and 4) -/

theorem test_setaddr_sends_high_byte_first :
    view (exec (.setaddr 300) (withAnswers [ack])) = some ([.wrblk 0x57 0x01 0x2C none], [okWith .empty], true) := by
  decide

theorem test_mrdb_reads_one_byte :
    view (exec (.mrdb 5) (withAnswers [ack, gives 0xC8])) =
      some ([.wrblk 0x57 0x00 0x05 none, .rdraw 0x57], [okWith (.data 200)], true) ∧
    view (exec (.mrdb 5) (withAnswers [fails 2])) =
      some ([.wrblk 0x57 0x00 0x05 none], [{ st := .transportError, te := 2, ef := none, res := none }], true) := by
  decide

theorem test_mwrb_writes_in_one_transfer :
    view (exec (.mwrb 65535 0) (withAnswers [ack])) =
      some ([.wrblk 0x57 0xFF 0xFF (some 0)], [okWith .empty], true) := by decide

/-- Without the settle time there is no response: the block stays `BUSY`. -/
theorem test_mwrb_waits_for_settle :
    view (exec (.mwrb 5 200) { bench with answers := [ack] }) =
      some ([.wrblk 0x57 0x00 0x05 (some 0xC8)], [], false) := by decide

/-- R226: beside another user of the devices neither the settle wait nor the host's pause ends a write cycle. -/
theorem test_shared_devices_refuse_the_settle_delay :
    step { settling with settleExtras := [0], soleOwner := false } = .refused .transportShared ∧
    step { bench with hostQueue := [.pause 0], soleOwner := false } = .refused .transportShared := ⟨rfl, rfl⟩

/-! ## The assembler (R105, R106) and the test double (95 section 3) -/

theorem test_assembler_lines :
    assembleLine "WRALL sec=30, hour=99" = .word 0x11050000000063001E#72 ∧
    assembleLine "MWRB 5, 200 ; a comment" = .word 0x220000000000C80005#72 ∧
    assembleLine "RDALL" = .word 0x100000000000000015#72 ∧ assembleLine "" = .blank := by decide

theorem test_assembler_refusals :
    assembleLine "BCDENC 256" = .refused ∧ assembleLine "SETADDR 65536" = .refused ∧
    assembleLine "BCDDEC -1" = .refused ∧
    assembleLine "WRCOMP sec=1, min=2, hour=3, wday=1, dom=4, month=5, year=6" = .refused := by decide

theorem test_double_answers_last_written :
    (TestDouble.answer
      (TestDouble.answer { clk := [], mem := [], ptr := 0, fill := 0 } (.wrreg 0x68 2 0x17)).2 (.rdreg 0x68 2)).1 =
      gives 0x17 := by decide

/-! ## Witnesses: for each obligation with hypotheses, inputs that meet them -/

/-- The bench with a word presented. -/
def presented (w : CommandWord) : State := { bench with hostQueue := [.command w] }

theorem bench_offsets_legal : legalOffsets bench.offsets :=
  ⟨fun k => by cases k <;> decide, fun j k => by cases j <;> cases k <;> decide⟩

theorem bench_inv : bench.Inv :=
  ⟨rfl, bench_offsets_legal, rfl, List.Pairwise.nil, by simp [bench], List.Pairwise.nil, by simp [bench]⟩

theorem waiting_inv : waiting.Inv :=
  ⟨rfl, bench_offsets_legal, ⟨_, _, rfl, rfl, by decide, rfl⟩, List.Pairwise.nil, by simp [waiting, bench],
    List.Pairwise.nil, by simp [waiting, bench]⟩

theorem settling_inv : settling.Inv :=
  ⟨rfl, bench_offsets_legal, ⟨_, _, rfl, rfl, by decide, rfl⟩, List.Pairwise.nil, by simp [settling, bench],
    by simp [settling, Memory.wf], by simp [settling]⟩

theorem witness_O2 : (Instr.wrall 0x7F (fields 5 38 17 2 10 11 26)).wellFormed = true ∧
    (Instr.mwrb 65535 255).wellFormed = true := by decide

theorem witness_O4 :
    (presented 0x220000000000C80005#72).rst = none ∧ (presented 0x220000000000C80005#72).seq = .idle ∧
      (presented 0x220000000000C80005#72).hostQueue = .command 0x220000000000C80005#72 :: [] ∧
      decode 0x220000000000C80005#72 = .command (.mwrb 5 200) := by decide

theorem witness_O5 :
    (presented 0x11FF1A0B0A02112605#72).rst = none ∧ (presented 0x11FF1A0B0A02112605#72).seq = .idle ∧
      (presented 0x11FF1A0B0A02112605#72).hostQueue = .command 0x11FF1A0B0A02112605#72 :: [] ∧
      decode 0x11FF1A0B0A02112605#72 = .illegal (.reservedBits 0x11) := by decide

/-- O6, O7: an operation that waits and one that ends; a `BUSY` block. -/
theorem witness_O6_O7 :
    (∃ t, exec (.setaddr 0) bench = .next t) ∧ (∃ t, exec (.setaddr 0) (withAnswers [ack]) = .next t) ∧
      waiting.rst = none ∧ (∃ o, waiting.seq = .busy o) ∧ ∃ t, step waiting = .next t :=
  ⟨⟨_, rfl⟩, ⟨_, rfl⟩, rfl, ⟨_, rfl⟩, ⟨_, rfl⟩⟩

theorem witness_O8 : ∃ t, step (presented 0#72) = .next t ∧ t.responses ≠ (presented 0#72).responses :=
  ⟨_, rfl, by decide⟩

/-- Operand lists of an assembler line. -/
def wrallOperands : List (OperandName × List Char) := [(.field .hour, "0xFF".toList), (.field .sec, "0".toList)]
def wrcompOperands : List (OperandName × List Char) :=
  [(.cent, "20".toList), (.field .sec, "1".toList), (.field .min, "2".toList), (.field .hour, "3".toList),
    (.field .dom, "4".toList), (.field .month, "5".toList), (.field .year, "6".toList)]

/-- O9: an accepted line, the largest operand of each width, and an operand list of WRALL and of WRCOMP, reordered. -/
theorem witness_O9 :
    assembleLine "MRDB 5" = .word 0x210000000000000005#72 ∧ byteOperand "255".toList = some 255 ∧
      byteOperand "0xFF".toList = some 255 ∧ addressOperand "65535".toList = some 65535 ∧
      (wrallOperands.map (·.1)).Nodup ∧ .cent ∉ wrallOperands.map (·.1) ∧
      (∀ p ∈ wrallOperands, (byteOperand p.2).isSome = true) ∧ (wrcompOperands.map (·.1)).Nodup ∧
      .field .wday ∉ wrcompOperands.map (·.1) ∧
      ((∀ k, k ≠ .wday → .field k ∈ wrcompOperands.map (·.1)) ∧ .cent ∉ (wrcompOperands.drop 1).map (·.1)) ∧
      (∀ p ∈ wrcompOperands, (byteOperand p.2).isSome = true) ∧ wrcompOperands.Perm wrcompOperands.reverse :=
  ⟨by decide, by decide, by decide, by decide, by decide, by decide, by decide, by decide, by decide,
    ⟨fun k => by cases k <;> decide, by decide⟩, by decide, (List.reverse_perm _).symm⟩

/-- O57: the smallest number too large of each width; a list with a value too large, with a name twice, with `cent`, with
`wday`, and without a field; a line with a minus sign. -/
theorem witness_O57 :
    byteOperand "256".toList = none ∧ addressOperand "65536".toList = none ∧
      (∃ p ∈ [(OperandName.field .sec, "256".toList)], byteOperand p.2 = none) ∧
      ¬ ((wrallOperands ++ wrallOperands).map (·.1)).Nodup ∧ .cent ∈ wrcompOperands.map (·.1) ∧
      .field .wday ∈ [(OperandName.field .wday, "1".toList)].map (·.1) ∧ TimeField.min ≠ .wday ∧
      .field .min ∉ wrallOperands.map (·.1) ∧ ';' ∉ "MRDB ".toList := by decide

theorem witness_O10 :
    (99#8).toNat ≤ 99 ∧ (0x99#8).toNat / 16 ≤ 9 ∧ (0x99#8).toNat % 16 ≤ 9 := by decide

theorem witness_O11 :
    ((0x99#8).toNat / 16 ≤ 9 ∧ (0x99#8).toNat % 16 ≤ 9) ∧ 9 < (0xA9#8).toNat / 16 ∧ 9 < (0x9A#8).toNat % 16 := by
  decide

theorem witness_O12 : (99#8).toNat ≤ 99 ∧ 99 < (100#8).toNat := by decide

theorem witness_O13 : (0x65 : Byte) ≠ 0x64 ∧ TimeField.sec ≠ .hour ∧ fieldInRange .hour 23 = true := by decide

theorem witness_O14 :
    (0xE4 : Byte) ≠ 0x64 ∧ TimeField.year ≠ .sec ∧ TimeField.year ≠ .hour ∧ fieldDecode .sec 0x79 = some 79 ∧
      fieldDecode .hour 0x39 = some 39 ∧ fieldDecode .year 0x99 = some 99 := by decide

theorem witness_O15 :
    fieldInRange .wday 8 = false ∧ fieldInRange .wday 7 = true ∧ (withAnswers [ack]).transportReady ∧
      (withAnswers [ack]).answers = ack :: [] :=
  ⟨by decide, by decide, ⟨rfl, rfl⟩, rfl⟩

theorem witness_O16 :
    (withAnswers [ack, ack, ack, ack, ack, ack, ack]).transportReady ∧ (∀ _ : TimeField, ack.ok = true) ∧
      (∀ k : TimeField, fieldDecode k ack.data = some 0) ∧
      (withAnswers [ack, ack, ack, ack, ack, ack, ack]).answers = [ack, ack, ack, ack, ack, ack, ack] ++ [] :=
  ⟨⟨rfl, rfl⟩, fun _ => rfl, fun k => by cases k <;> decide, rfl⟩

/-- Both clauses, at the first field and at the last. -/
theorem witness_O17 :
    (withAnswers [fails 1]).transportReady ∧
      [TimeField.sec, .min, .hour, .wday, .dom, .month, .year] =
        [] ++ .sec :: [.min, .hour, .wday, .dom, .month, .year] ∧
      (withAnswers [fails 1]).answers = [] ++ fails 1 :: [] ∧ (fails 1).ok = false ∧
      [TimeField.sec, .min, .hour, .wday, .dom, .month, .year] =
        [.sec, .min, .hour, .wday, .dom, .month] ++ .year :: [] ∧
      (∀ j ∈ [TimeField.sec, .min, .hour, .wday, .dom, .month],
        ack.ok = true ∧ (fieldDecode j ack.data).isSome = true) ∧
      (withAnswers [ack, ack, ack, ack, ack, ack, gives 0x9A]).answers =
        [ack, ack, ack, ack, ack, ack] ++ gives 0x9A :: [] ∧
      (gives 0x9A).ok = true ∧ fieldDecode .year (gives 0x9A).data = none :=
  ⟨⟨rfl, rfl⟩, rfl, rfl, rfl, rfl, by decide, rfl, rfl, by decide⟩

theorem witness_O18 : (99#8).toNat ≤ 99 := by decide

theorem witness_O19 :
    (withAnswers [ack, ack]).transportReady ∧
      [TimeField.year, .wday] =
        [TimeField.sec, .min, .hour, .year, .month, .dom, .wday].filter
          (fun k => (0x48 : Byte).getLsbD (fieldIndex k)) ∧
      (∀ k ∈ [TimeField.year, .wday], fieldLo k ≤ ((fields 0 0 0 7 0 0 99).get k).toNat ∧
        ((fields 0 0 0 7 0 0 99).get k).toNat ≤ fieldHi k ∧ ack.ok = true) ∧
      (withAnswers [ack, ack]).answers = [TimeField.year, .wday].map (fun _ => ack) ++ [] :=
  ⟨⟨rfl, rfl⟩, by decide, by decide, rfl⟩

/-- A value just above the bounds, one just below, and a write that fails. -/
theorem witness_O20 :
    ((withAnswers [ack]).transportReady ∧ (withAnswers [ack, fails 0]).transportReady) ∧
    [TimeField.sec, .min, .hour, .year, .month, .dom, .wday].filter (fun k => (0x09 : Byte).getLsbD (fieldIndex k)) =
        [.sec] ++ .wday :: [] ∧
      (∀ j ∈ [TimeField.sec], fieldLo j ≤ ((fields 59 0 0 8 0 0 0).get j).toNat ∧
        ((fields 59 0 0 8 0 0 0).get j).toNat ≤ fieldHi j ∧ ack.ok = true) ∧
      fieldHi .wday < ((fields 59 0 0 8 0 0 0).get .wday).toNat ∧
      ((fields 59 0 0 0 0 0 0).get .wday).toNat < fieldLo .wday ∧
      fieldLo .wday ≤ ((fields 59 0 0 1 0 0 0).get .wday).toNat ∧
      ((fields 59 0 0 1 0 0 0).get .wday).toNat ≤ fieldHi .wday ∧ (fails 0).ok = false ∧
      (withAnswers [ack, fails 0]).answers = [TimeField.sec].map (fun _ => ack) ++ fails 0 :: [] ∧
      (withAnswers [ack]).answers = [TimeField.sec].map (fun _ => ack) ++ [] :=
  ⟨⟨⟨rfl, rfl⟩, rfl, rfl⟩, by decide⟩

theorem witness_O21 :
    legalOffsets (withAnswers [ack]).offsets ∧
      ∃ t, exec (.wrall 1 (fields 59 0 0 0 0 0 0)) (withAnswers [ack]) = .next t ∧
        t.responses = (withAnswers [ack]).responses ++ [okWith .empty] :=
  ⟨bench_offsets_legal, _, rfl, rfl⟩

/-- O22: both outcomes of WRCOMP, a next state and a refusal. -/
theorem witness_O22 :
    (∃ t, exec (.wrcomp 21 (fields 59 59 23 9 29 2 0)) bench = .next t) ∧
      exec (.wrcomp 21 (fields 59 59 23 9 29 2 0)) { bench with soleOwner := false } = .refused .transportShared :=
  ⟨⟨_, rfl⟩, rfl⟩

theorem witness_O23_O25 :
    (withAnswers [ack, ack, ack, ack, ack, ack, ack]).transportReady ∧
      (∀ k, k ≠ TimeField.wday → fieldLo k ≤ ((fields 59 59 23 9 31 12 99).get k).toNat ∧
        ((fields 59 59 23 9 31 12 99).get k).toNat ≤ fieldHi k) ∧
      (withAnswers [ack, ack, ack, ack, ack, ack, ack]).answers = [ack, ack, ack, ack, ack, ack, ack] ++ [] ∧
      ({ withAnswers [ack, ack, ack, ack, ack, ack, ack] with hostTime := 0x15630C1F09173B3B } : State).hostTime =
        (21#8 ++ 99#8 ++ 12#8 ++ 31#8 ++ 9#8 ++ 23#8 ++ 59#8 ++ 59#8) :=
  ⟨⟨rfl, rfl⟩, fun k => by cases k <;> decide, rfl, by decide⟩

/-- O24: the last day of each kind of month; years that leap, and years that do not. -/
theorem witness_O24 :
    lastDayOfMonth 2023 1 31 ∧ lastDayOfMonth 2023 11 30 ∧ lastDayOfMonth 2023 2 28 ∧ lastDayOfMonth 1900 2 28 ∧
      lastDayOfMonth 2024 2 29 ∧ lastDayOfMonth 2000 2 29 ∧ lastDayOfMonth (-100) 2 28 ∧ ¬ lastDayOfMonth 2023 2 29 := by
  simp [lastDayOfMonth, leapYear]

theorem witness_O26 :
    waiting.rst = none ∧ (∃ o, waiting.seq = .busy o) ∧ (∃ t, step waiting = .next t) ∧
      step { waiting with soleOwner := false } = .refused .transportShared :=
  ⟨rfl, ⟨_, rfl⟩, ⟨_, rfl⟩, rfl⟩

/-- O27, O31, O32: the three cases of two requests. -/
theorem witness_O27_O31_O32 :
    (withAnswers [ack, gives 0xFF]).transportReady ∧ ack.ok = true ∧ (gives 0xFF).ok = true ∧ (fails 2).ok = false ∧
      (withAnswers [ack, gives 0xFF]).answers = ack :: gives 0xFF :: [] ∧
      (withAnswers [fails 2]).answers = fails 2 :: [] ∧
      (withAnswers [ack, fails 2]).answers = ack :: fails 2 :: [] ∧
      (withAnswers [ack]).chips.writeCycle = false ∧
      ({ withAnswers [ack] with chips := settling.chips } : State).chips.writeCycle = true :=
  ⟨⟨rfl, rfl⟩, rfl, rfl, rfl, rfl, rfl, rfl, rfl, rfl⟩

theorem witness_O28 : (0x7F : Byte).extractLsb' 6 2 = (0x40 : Byte).extractLsb' 6 2 := by decide

theorem witness_O33_O34 :
    (withAnswers [ack]).transportReady ∧ ack.ok = true ∧ (withAnswers [ack]).answers = ack :: [] ∧
      (withAnswers [ack]).settleExtras = 0 :: [] ∧ (fails 1).ok = false ∧
      (withAnswers [fails 1]).answers = fails 1 :: [] ∧
      ∃ t, exec (.mwrb 5 200) (withAnswers [fails 1]) = .next t :=
  ⟨⟨rfl, rfl⟩, rfl, rfl, rfl, rfl, rfl, _, rfl⟩

/-- O35: an answer after the delay; the timer still running; the timer elapsed; the transfer unanswered, answered,
answered with the timer elapsed, failed. -/
theorem witness_O35 :
    (∃ t, exec (.mwrb 5 200) (withAnswers [ack]) = .next t ∧
      t.responses = (withAnswers [ack]).responses ++ [okWith .empty]) ∧
    settling.rst = none ∧ (∃ o, settling.seq = .busy o ∧ o.todo = [.waitSettle]) ∧ (∃ t, step settling = .next t) ∧
    (∃ t, step { settling with settleExtras := [7] } = .next t) ∧
    (∀ as es, (sending as es).rst = none ∧
      ∃ o, (sending as es).seq = .busy o ∧ o.todo = [.sendData 5 200, .waitSettle]) ∧
    (∃ t, step (sending [] []) = .next t) ∧ (∃ t, step (sending [ack] []) = .next t) ∧
    (∃ t, step (sending [ack] [7]) = .next t) ∧ ∃ t, step (sending [fails 1] []) = .next t :=
  ⟨⟨_, rfl, rfl⟩, rfl, ⟨_, rfl, rfl⟩, ⟨_, rfl⟩, ⟨_, rfl⟩, fun _ _ => ⟨rfl, _, rfl, rfl⟩, ⟨_, rfl⟩, ⟨_, rfl⟩, ⟨_, rfl⟩,
    _, rfl⟩

/-- O36, at the last address below the capacity. -/
theorem witness_O36 :
    ∃ t, exec (.mwrb 4095 200) (withAnswers [ack]) = .next t ∧ t.transportReady ∧
      t.responses = (withAnswers [ack]).responses ++ [okWith .empty] ∧
      (4095#16).toNat < (withAnswers [ack]).memCapacity ∧ (withAnswers [ack]).chips.writeCycle = false ∧
      ack.ok = true ∧ (gives 200).ok = true ∧ ∀ b, t.chips.readBack 4095 = some b → (gives 200).data = b := by
  refine ⟨_, rfl, ⟨rfl, rfl⟩, rfl, by decide, rfl, rfl, rfl, fun b hb => ?_⟩
  exact Option.some.inj hb

theorem witness_O37 :
    (∃ t, exec (.mwrb 4095 200) (withAnswers [ack]) = .next t) ∧ (withAnswers [ack]).chips.writeCycle = false ∧
      (4095#16).toNat < (withAnswers [ack]).memCapacity ∧ (∃ t, exec (.setaddr 5) (withAnswers [ack]) = .next t) ∧
      ∃ t, exec (.mrdb 5) (withAnswers [ack, ack]) = .next t :=
  ⟨⟨_, rfl⟩, rfl, by decide, ⟨_, rfl⟩, ⟨_, rfl⟩⟩

theorem witness_O38_O39 :
    (∃ t, exec (.bcddec 0x99) bench = .next t) ∧ (∃ t, exec (.bcdenc 100) bench = .next t) ∧
      (∃ t, exec (.rdall 21) bench = .next t) ∧ (∃ t, exec .rdtemp bench = .next t) ∧
      ∀ a v, Instr.rdtemp ≠ .mwrb a v :=
  ⟨⟨_, rfl⟩, ⟨_, rfl⟩, ⟨_, rfl⟩, ⟨_, rfl⟩, fun _ _ => nofun⟩

/-- O40, O41: a step that sends a request. -/
theorem witness_O40_O41 :
    (presented 0x110100000000000005#72).rst = none ∧ legalOffsets (presented 0x110100000000000005#72).offsets ∧
      ∃ t, step (presented 0x110100000000000005#72) = .next t ∧ t.requests = [.wrreg 0x68 0 0x05] :=
  ⟨rfl, bench_offsets_legal, _, rfl, rfl⟩

/-- O42, O43: an operation that ends, and one left waiting. -/
theorem witness_O42_O43 :
    (∃ t, exec .rdtemp (withAnswers [ack, ack]) = .next t ∧ t.seq = .idle) ∧
      ∃ t o, exec .rdtemp bench = .next t ∧ t.seq = .busy o ∧ t.rst = none :=
  ⟨⟨_, rfl, rfl⟩, _, _, rfl, rfl, rfl⟩

theorem witness_O44 :
    waiting.Inv ∧ waiting.soleOwner = true ∧ waiting.rst = none ∧ waiting.outstanding = some (.rdreg 0x68 0x11) ∧
      waiting.answers = [] := ⟨waiting_inv, rfl, rfl, rfl, rfl⟩

/-- O45: the link open and shared, the link closed; a WRALL, a WRCOMP and a WRNOW whose first value is at its bound; a
settle wait gone on with, and a pause, beside another user. -/
theorem witness_O45 :
    bench.linkOpen = true ∧ ({ bench with soleOwner := false } : State).soleOwner = false ∧
      ({ bench with linkOpen := false } : State).linkOpen = false ∧
      [TimeField.sec, .min, .hour, .year, .month, .dom, .wday].filter (fun k => (0x48 : Byte).getLsbD (fieldIndex k)) =
        .year :: [.wday] ∧
      fieldLo .year ≤ ((fields 0 0 0 8 0 0 99).get .year).toNat ∧
      ((fields 0 0 0 8 0 0 99).get .year).toNat ≤ fieldHi .year ∧ (fields 59 0 0 0 0 0 0).sec.toNat ≤ 59 ∧
      (bench.hostTime.extractLsb' 0 8).toNat ≤ 59 ∧
      ({ settling with soleOwner := false } : State).seq =
        .busy { instr := .mwrb 5 200, got := [], todo := .waitSettle :: [] } ∧
      settling.rst = none ∧ MicroOp.waitSettle.check = none ∧ settling.linkOpen = true ∧ bench.rst = none ∧
      bench.seq = .idle ∧
      ({ bench with hostQueue := [.pause 0], soleOwner := false } : State).hostQueue = .pause 0 :: [] := by decide

theorem witness_O46 : bench.rst = none ∧ bench.seq = .idle ∧ bench.hostQueue = [] := by decide

theorem witness_O47 :
    (presented 0#72).Inv ∧ (presented 0#72).rst = none ∧
      ∃ t, step (presented 0#72) = .next t ∧ t.responses ≠ (presented 0#72).responses :=
  ⟨⟨bench_inv.link, bench_inv.offsets, rfl, bench_inv.clockWf, bench_inv.clockBound, bench_inv.memWf,
    bench_inv.memBound⟩, rfl, _, rfl, by decide⟩

/-- O48, O50: reset with a request outstanding (a read, a data write), with none, and inside a write cycle; a pause. -/
theorem witness_O48_O50 :
    ({ waiting with rst := some { clockAddr := 0x69, memAddr := 0x56 } } : State).rst =
        some { clockAddr := 0x69, memAddr := 0x56 } ∧
      waiting.outstanding = some (.rdreg 0x68 0x11) ∧ settling.outstanding = none ∧
      settling.chips.writeCycle = true ∧
      (sending [] []).outstanding = some (.wrblk 0x57 0x00 0x05 (some 200)) ∧
      (sending [] []).chips.writeCycle = false ∧ bench.soleOwner = true ∧
      ({ bench with hostQueue := [.pause 0] } : State).hostQueue = .pause 0 :: [] ∧ bench.rst = none ∧
      bench.seq = .idle ∧ ∃ t, step { bench with hostQueue := [.pause 0] } = .next t :=
  ⟨rfl, rfl, rfl, rfl, rfl, rfl, rfl, rfl, rfl, rfl, _, rfl⟩

/-- O52: a block that is `IDLE`, one that waits, one that settles, and one with `RST` asserted. -/
theorem witness_O52 :
    (bench.Inv ∧ ∃ t, step bench = .next t) ∧ (waiting.Inv ∧ ∃ t, step waiting = .next t) ∧
      (settling.Inv ∧ ∃ t, step { settling with rst := some { clockAddr := 0x68, memAddr := 0x56 } } = .next t) :=
  ⟨⟨bench_inv, _, rfl⟩, ⟨waiting_inv, _, rfl⟩, ⟨settling_inv, _, rfl⟩⟩

/-- O54, O55: each of the four classes an operation can answer. -/
theorem witness_O54_O55 :
    (∃ t r, exec (.wrall 1 (fields 60 0 0 0 0 0 0)) bench = .next t ∧ t.responses = bench.responses ++ [r] ∧
      r.st = .rangeError) ∧ legalOffsets bench.offsets ∧
    (∃ t r, exec (.setaddr 0) (withAnswers [fails 0]) = .next t ∧
      t.responses = (withAnswers [fails 0]).responses ++ [r] ∧ r.st = .transportError) ∧
    ∃ t r, exec (.bcddec 0x9A) bench = .next t ∧ t.responses = bench.responses ++ [r] ∧
      r.st = .undefinedDecodeError :=
  ⟨⟨_, _, rfl, rfl, rfl⟩, bench_offsets_legal, ⟨_, _, rfl, rfl, rfl⟩, _, _, rfl, rfl, rfl⟩

/-- O56: the three operations, ended and left waiting. -/
theorem witness_O56 :
    (∃ t, exec (.wrall 1 (fields 59 0 0 0 0 0 0)) (withAnswers [ack]) = .next t) ∧
      (∃ t, exec (.wrcomp 21 (fields 0 0 0 0 1 13 0)) (withAnswers [ack, fails 0]) = .next t) ∧
      ∃ t, exec .wrnow bench = .next t :=
  ⟨⟨_, rfl⟩, ⟨_, rfl⟩, _, rfl⟩

end Sys2Proof.Tests
end

section
/-! # The BCD Codec's functions as arithmetic on `toNat`, and their round trips

`nibVal` is the ordinary value of the nibble (R120), so the two digits are the quotient and the remainder by 16 and the
functions of R121 to R123 are statements about `toNat`; both laws of R126 are then arithmetic. -/

namespace Sys2Proof.Machine

/-- The binary-weight accumulation of R120 is the nibble's ordinary unsigned value. -/
theorem nibVal_eq_toNat (n : BitVec 4) : nibVal n = n.toNat := by
  revert n
  decide

@[simp] theorem bcdTens_eq_div (b : Byte) : bcdTens b = b.toNat / 16 := by
  have hb : b.toNat < 256 := b.isLt
  simp only [bcdTens, nibVal_eq_toNat, BitVec.extractLsb'_toNat, Nat.shiftRight_eq_div_pow]
  omega

@[simp] theorem bcdUnits_eq_mod (b : Byte) : bcdUnits b = b.toNat % 16 := by
  simp [bcdUnits, nibVal_eq_toNat]

theorem bcdValid_iff (b : Byte) : bcdValid b = true ↔ b.toNat / 16 ≤ 9 ∧ b.toNat % 16 ≤ 9 := by
  simp [bcdValid]

/-- Decoding a valid byte does not wrap around (R122, R127). -/
theorem bcdDecode_toNat {b : Byte} (hb : bcdValid b = true) :
    (bcdDecode b).toNat = 10 * (b.toNat / 16) + b.toNat % 16 := by
  obtain ⟨htens, hunits⟩ := (bcdValid_iff b).1 hb
  simp only [bcdDecode, bcdTens_eq_div, bcdUnits_eq_mod, BitVec.toNat_ofNat]
  omega

/-- Both digits of a number up to 99 fit a nibble (R123, R127). -/
theorem bcdEncode_toNat {v : Byte} (hv : v.toNat ≤ 99) :
    (bcdEncode v).toNat = 16 * (v.toNat / 10) + v.toNat % 10 := by
  have htens : v.toNat / 10 < 2 ^ 4 := by omega
  have hunits : v.toNat % 10 < 2 ^ 4 := by omega
  rw [bcdEncode, BitVec.toNat_append, BitVec.toNat_ofNat, BitVec.toNat_ofNat, Nat.mod_eq_of_lt htens,
    Nat.mod_eq_of_lt hunits, ← Nat.shiftLeft_add_eq_or_of_lt hunits, Nat.shiftLeft_eq]
  omega

theorem bcdValid_bcdEncode {v : Byte} (hv : v.toNat ≤ 99) : bcdValid (bcdEncode v) = true := by
  rw [bcdValid_iff, bcdEncode_toNat hv]
  omega

/-- The first law of R126. -/
theorem bcdDecode_bcdEncode {v : Byte} (hv : v.toNat ≤ 99) : bcdDecode (bcdEncode v) = v := by
  apply BitVec.eq_of_toNat_eq
  rw [bcdDecode_toNat (bcdValid_bcdEncode hv), bcdEncode_toNat hv]
  omega

/-- The second law of R126. -/
theorem bcdEncode_bcdDecode {b : Byte} (hb : bcdValid b = true) : bcdEncode (bcdDecode b) = b := by
  have hdecode := bcdDecode_toNat hb
  obtain ⟨htens, hunits⟩ := (bcdValid_iff b).1 hb
  have hle : (bcdDecode b).toNat ≤ 99 := by omega
  apply BitVec.eq_of_toNat_eq
  rw [bcdEncode_toNat hle, hdecode]
  omega

/-- Settles O10, from the two laws on valid bytes and the digits of a byte as quotient and remainder by 16. -/
theorem bcdRoundTripLaws : Obligations.BcdRoundTripLaws := by
  refine ⟨fun n hn => ⟨bcdValid_bcdEncode hn, bcdDecode_bcdEncode hn⟩, fun b htens hunits => ?_⟩
  have hvalid : bcdValid b = true := (bcdValid_iff b).2 ⟨htens, hunits⟩
  exact ⟨hvalid, bcdEncode_bcdDecode hvalid⟩

end Sys2Proof.Machine
end

section
/-! # The hours sentinel (R141)

Off the whole byte 0x64 of the hours field the read pipeline is mask and decode, and that byte is the code of 64, which no
hours value in range has. -/

namespace Sys2Proof.Machine

/-- Where the remap of R141 does not apply, a field is read by its mask and the decode alone (R140). -/
theorem fieldDecode_of_not_sentinel {k : TimeField} {raw : Byte} (h : ¬(k = .hour ∧ raw = hourSentinel)) :
    fieldDecode k raw =
      if bcdValid (raw &&& fieldMask k) then some (bcdDecode (raw &&& fieldMask k)) else none := by
  simp [fieldDecode, fieldRemap, h]

/-- No hours value in range is written as the sentinel byte. -/
theorem bcdEncode_hour_ne_sentinel {v : Byte} (h : fieldInRange .hour v = true) : bcdEncode v ≠ hourSentinel := by
  have hv : v.toNat ≤ 23 := ((fieldInRange_iff .hour v).1 h).2
  intro he
  have hcode : 16 * (v.toNat / 10) + v.toNat % 10 = 0x64 := by
    rw [← bcdEncode_toNat (by omega), he]
    rfl
  omega

/-- Settles O13: the three bytes by evaluation, the rest from where the remap applies and the range of hours. -/
theorem hoursSentinelDecodesToZero : Obligations.HoursSentinelDecodesToZero := by
  refine ⟨by decide, by decide, by decide, fun raw hraw => ?_, fun k raw hk => ?_,
    fun v hv => bcdEncode_hour_ne_sentinel hv⟩
  · exact fieldDecode_of_not_sentinel fun h => hraw h.2
  · exact fieldDecode_of_not_sentinel fun h => hk h.1

end Sys2Proof.Machine
end

section
/-! # Every request is legal (R161)

One step of an operation, its check passed, makes a legal request. Sending only legal requests, with the configuration
kept, is a relation of states that composes, so a run of steps has it, and every step but a reset. A reset, which samples
the addresses anew, sends nothing. -/

namespace Sys2Proof.Machine

/-! ## The request of one step -/

/-- A value in its field's range is a number of at most two decimal digits (R36). -/
theorem fieldHi_le_99 (k : TimeField) : fieldHi k ≤ 99 := by
  cases k <;> decide

/-- A write whose check passed is in its field's range. -/
theorem inRange_of_check {k : TimeField} {v : Byte} (h : (MicroOp.writeField k v).check = none) :
    fieldLo k ≤ v.toNat ∧ v.toNat ≤ fieldHi k := by
  rw [← fieldInRange_iff]
  by_contra hout
  simp [MicroOp.check, hout] at h

/-- The BCD byte of an in-range value decodes to that value, so writing it is legal (R126, R143). -/
theorem legalRequest_writeField (s : State) {k : TimeField} {v : Byte}
    (h : fieldLo k ≤ v.toNat ∧ v.toNat ≤ fieldHi k) :
    s.legalRequest (.wrreg s.clockAddr (s.offsets.get k) (bcdEncode v)) := by
  have hv : v.toNat ≤ 99 := h.2.trans (fieldHi_le_99 k)
  refine ⟨rfl, k, rfl, bcdValid_bcdEncode hv, ?_⟩
  rwa [bcdDecode_bcdEncode hv]

/-- A step whose check has passed makes no request but a legal one. -/
theorem legalRequest_of_request {m : MicroOp} {s : State} {r : Request} (hc : m.check = none)
    (hr : m.request s = some r) : s.legalRequest r := by
  cases m with
  | readField k => cases hr; exact ⟨rfl, .inl ⟨k, rfl⟩⟩
  | writeField k v => cases hr; exact legalRequest_writeField s (inRange_of_check hc)
  | readTempWhole => cases hr; exact ⟨rfl, .inr (.inl rfl)⟩
  | readTempFrac => cases hr; exact ⟨rfl, .inr (.inr rfl)⟩
  | sendPointer a => cases hr; rfl
  | sendData a v => cases hr; rfl
  | readRaw => cases hr; rfl
  | waitSettle => cases hr

/-- Legal offsets keep a legal write away from the two temperature registers (R7, R161). -/
theorem write_avoids_temperature {s : State} (ho : legalOffsets s.offsets) {dev reg val : Byte}
    (h : s.legalRequest (.wrreg dev reg val)) : reg ≠ 0x11 ∧ reg ≠ 0x12 := by
  obtain ⟨-, k, rfl, -⟩ := h
  have hk : (s.offsets.get k).toNat ≤ 7 := ho.1 k
  exact ⟨fun he => by simp [he] at hk, fun he => by simp [he] at hk⟩

/-! ## Sending only legal requests -/

/-- From `s` to `t` the configuration stays and the requests sent are all legal. -/
def SendsLegally (s t : State) : Prop :=
  s.sameConfiguration t ∧ ∃ new, t.requests = s.requests ++ new ∧ ∀ r ∈ new, s.legalRequest r

/-- What is legal depends on the configuration alone. -/
theorem legalRequest_of_sameConfiguration {s t : State} (h : s.sameConfiguration t) {r : Request}
    (hr : t.legalRequest r) : s.legalRequest r := by
  obtain ⟨hclock, hmem, -, hoffsets, -⟩ := h
  cases r <;> simpa only [State.legalRequest, hclock, hmem, hoffsets] using hr

theorem sameConfiguration_trans {s t u : State} (hst : s.sameConfiguration t) (htu : t.sameConfiguration u) :
    s.sameConfiguration u := by
  obtain ⟨hclock, hmem, hlink, hoffsets, hcap⟩ := hst
  simpa only [State.sameConfiguration, hclock, hmem, hlink, hoffsets, hcap] using htu

/-- Most updates of the state leave both alone, by their definitions. -/
theorem SendsLegally.of_quiet {s t : State} (hc : s.sameConfiguration t := by exact ⟨rfl, rfl, rfl, rfl, rfl⟩)
    (hq : t.requests = s.requests := by rfl) : SendsLegally s t := ⟨hc, [], by simp [hq], by simp⟩

theorem SendsLegally.refl (s : State) : SendsLegally s s := .of_quiet

theorem SendsLegally.trans {s t u : State} (hst : SendsLegally s t) (htu : SendsLegally t u) : SendsLegally s u := by
  obtain ⟨hc, new, hnew, hlegal⟩ := hst
  obtain ⟨hc', new', hnew', hlegal'⟩ := htu
  refine ⟨sameConfiguration_trans hc hc', new ++ new', by simp [hnew, hnew'], fun r hr => ?_⟩
  rcases List.mem_append.1 hr with hr | hr
  · exact hlegal r hr
  · exact legalRequest_of_sameConfiguration hc (hlegal' r hr)

theorem SendsLegally.sendRequest {s : State} {r : Request} (h : s.legalRequest r) :
    SendsLegally s (sendRequest r s) :=
  ⟨⟨rfl, rfl, rfl, rfl, rfl⟩, [r], rfl, by simpa using h⟩

/-! ## Runs, operations, steps -/

/-- A run of steps, from any position and with any operands, sends only legal requests. -/
theorem runSteps_sendsLegally {i : Instr} {todo : List MicroOp} {issued : Bool} {got : List Byte} {s t : State}
    (h : runSteps i todo issued got s = .next t) : SendsLegally s t :=
  runSteps_relates (P := SendsLegally) .refl (fun _ _ _ => .trans)
    (send := fun _ _ _ hc hr => .sendRequest (legalRequest_of_request hc hr))
    (take := fun _ _ _ _ _ => .of_quiet)
    (start := fun _ => .of_quiet)
    (elapse := fun _ _ _ _ => .of_quiet)
    (wait := fun _ _ => .of_quiet)
    (resp := fun _ _ => .of_quiet) h

theorem exec_sendsLegally {i : Instr} {s t : State} (h : exec i s = .next t) : SendsLegally s t := by
  rcases exec_cases i s with ⟨plan, hplan⟩ | ⟨r, n, hanswer⟩
  · exact runSteps_sendsLegally (hplan ▸ h)
  · rw [hanswer] at h
    cases h
    exact .of_quiet

/-- Every step but a reset: an operation gone on with or accepted, or one of the four steps that send nothing. -/
theorem step_sendsLegally {s t : State} (h0 : s.rst = none) (h : step s = .next t) : SendsLegally s t := by
  rcases step_cases h0 h with ⟨o, -, hrun⟩ |
    ⟨-, ⟨-, rfl⟩ | ⟨i, rest, hexec⟩ | ⟨rest, rfl⟩ | ⟨rest, v, rfl⟩ | ⟨rest, e, -, rfl⟩⟩
  · exact runSteps_sendsLegally hrun
  · exact .refl t
  · have hqueue : SendsLegally s { s with hostQueue := rest } := .of_quiet
    exact hqueue.trans (exec_sendsLegally hexec)
  · exact .of_quiet
  · exact .of_quiet
  · exact .of_quiet

/-- The requests of any step are legal; a reset makes none. -/
theorem step_requests_legal {s t : State} (h : step s = .next t) :
    ∃ new, t.requests = s.requests ++ new ∧ ∀ r ∈ new, s.legalRequest r := by
  cases h0 : s.rst with
  | none => exact (step_sendsLegally h0 h).2
  | some p =>
    simp only [step, h0] at h
    cases h
    exact ⟨[], by simp, by simp⟩

/-- Settles O40, from the legality of every step's requests and the distance of the legal offsets from 0x11 and 0x12. -/
theorem everyRequestIsLegal : Obligations.EveryRequestIsLegal := by
  intro s t h
  obtain ⟨new, hnew, hlegal⟩ := step_requests_legal h
  refine ⟨new, hnew, fun r hr => ⟨hlegal r hr, ?_⟩⟩
  rintro ho dev reg val rfl
  exact write_avoids_temperature ho (hlegal _ hr)

end Sys2Proof.Machine
end

section
/-! # The address split and the order of the pointer bytes (R190, R193)

The two pointer bytes are the quotient and the remainder of the address by 256, so they are the two halves of its bits and
the address comes back from them; a block write carries them high byte first, the data byte after them. -/

namespace Sys2Proof.Machine

/-! ## The address split -/

/-- An address is below 65536, so its quotient by 256 fits a byte: there is no overflow case (R190). -/
@[simp] theorem addrHi_toNat (a : LinearAddress) : (addrHi a).toNat = a.toNat / 256 := by
  have ha : a.toNat < 65536 := a.isLt
  rw [addrHi, BitVec.toNat_ofNat]
  omega

@[simp] theorem addrLo_toNat (a : LinearAddress) : (addrLo a).toNat = a.toNat % 256 := by
  rw [addrLo, BitVec.toNat_ofNat]
  omega

theorem addrHi_eq_extractLsb' (a : LinearAddress) : addrHi a = a.extractLsb' 8 8 := by
  rw [addrHi, BitVec.extractLsb', Nat.shiftRight_eq_div_pow]

theorem addrLo_eq_extractLsb' (a : LinearAddress) : addrLo a = a.extractLsb' 0 8 := by
  apply BitVec.eq_of_toNat_eq
  rw [addrLo_toNat, BitVec.extractLsb'_toNat, Nat.shiftRight_zero]

theorem pointerAddress_toNat (hi lo : Byte) : (pointerAddress hi lo).toNat = 256 * hi.toNat + lo.toNat := by
  rw [pointerAddress, BitVec.toNat_append, ← Nat.shiftLeft_add_eq_or_of_lt lo.isLt, Nat.shiftLeft_eq, Nat.mul_comm]

/-- Addressing the device with an address's own two bytes names that address. -/
@[simp] theorem pointerAddress_addrHi_addrLo (a : LinearAddress) : pointerAddress (addrHi a) (addrLo a) = a := by
  apply BitVec.eq_of_toNat_eq
  rw [pointerAddress_toNat, addrHi_toNat, addrLo_toNat, Nat.div_add_mod]

/-- Settles O29: the split as arithmetic, as bits and as an address; the example and the corners by evaluation. -/
theorem addressSplitIsExact : Obligations.AddressSplitIsExact := by
  refine ⟨fun a => ⟨addrHi_toNat a, addrLo_toNat a, addrHi_eq_extractLsb' a, addrLo_eq_extractLsb' a, ?_,
    pointerAddress_addrHi_addrLo a⟩, by decide, by decide, by decide, by decide, by decide⟩
  rw [← pointerAddress_toNat, pointerAddress_addrHi_addrLo]

/-! ## The block writes -/

theorem request_sendPointer (s : State) (a : LinearAddress) :
    (MicroOp.sendPointer a).request s = some (pointerRequest s a) := rfl

theorem request_sendData (s : State) (a : LinearAddress) (v : Byte) :
    (MicroOp.sendData a v).request s = some (dataRequest s a v) := rfl

/-- The bytes of a pointer write on the bus (R193). -/
theorem pointerRequest_blk (s : State) (a : LinearAddress) :
    (pointerRequest s a).message.blk = [addrHi a, addrLo a] := rfl

/-- The bytes of a data write on the bus (R193). -/
theorem dataRequest_blk (s : State) (a : LinearAddress) (v : Byte) :
    (dataRequest s a v).message.blk = [addrHi a, addrLo a, v] := rfl

/-- Settles O30: the bytes of the two block writes, the pointer bytes as the halves of the address. -/
theorem pointerGoesHighByteFirst : Obligations.PointerGoesHighByteFirst := by
  refine ⟨fun s a => ?_, fun s a v => ?_⟩
  · rw [request_sendPointer, Option.map_some, pointerRequest_blk, addrHi_eq_extractLsb', addrLo_eq_extractLsb']
  · rw [request_sendData, Option.map_some, dataRequest_blk, addrHi_eq_extractLsb', addrLo_eq_extractLsb']

end Sys2Proof.Machine
end

section
/-! # What a `RangeError` says of its operation (R211)

No step but a field write has a check to fail, and no other error is a `RangeError`. So a run that answers one stopped
at a write of its own sequence whose value is out of range, before that write's request; what it sent are requests of the
steps before it. In a write plan those are writes of other fields. -/

namespace Sys2Proof.Machine

/-! ## Where a `RangeError` can come from -/

/-- The value lies outside the bounds of its field (R36). -/
def OutOfRange (k : TimeField) (v : Byte) : Prop := v.toNat < fieldLo k ∨ fieldHi k < v.toNat

theorem outOfRange_of_fieldInRange {k : TimeField} {v : Byte} (h : ¬ fieldInRange k v = true) : OutOfRange k v := by
  rw [fieldInRange_iff] at h
  rw [OutOfRange]
  omega

/-- The only check a step has is the range check of a field write (R143). -/
theorem check_eq_some {m : MicroOp} {e : OpError} (h : m.check = some e) :
    ∃ k v, m = .writeField k v ∧ e = .range k ∧ OutOfRange k v := by
  cases m with
  | writeField k v =>
    by_cases hv : fieldInRange k v = true
    · simp [MicroOp.check, hv] at h
    · rw [MicroOp.check, if_neg hv] at h
      cases h
      exact ⟨k, v, rfl, rfl, outOfRange_of_fieldInRange hv⟩
  | _ => cases h

/-- What a delivered byte can raise is a decode error (R213). -/
theorem receive_error_st {m : MicroOp} {d : Byte} {e : OpError} (h : m.receive d = .error e) :
    (errorResponse e).st = .undefinedDecodeError := by
  cases m with
  | readField k =>
    simp only [MicroOp.receive] at h
    split at h
    · cases h
    · cases h; rfl
  | _ => cases h

/-- The request of a step depends on the configuration alone. -/
theorem request_of_sameConfiguration {s t : State} (h : s.sameConfiguration t) (m : MicroOp) :
    m.request t = m.request s := by
  obtain ⟨hclock, hmem, -, hoffsets, -⟩ := h
  cases m <;> simp only [MicroOp.request, hclock, hmem, hoffsets]

/-- Where nothing was answered before, the one response of an answer is the response given. -/
theorem eq_of_respond {r r' : Response} {s s' : State} (h : (respond r' s').responses = s.responses ++ [r])
    (hs : s'.responses = s.responses := by rfl) : r' = r := by
  simpa [hs] using h

/-! ## Runs that answer a `RangeError` -/

/-- A run of `todo` from `s` to `t` that answered `r` stopped at an out-of-range write among `todo`, having sent requests
of the steps before it only. -/
def StoppedOutOfRange (todo : List MicroOp) (s t : State) (r : Response) : Prop :=
  ∃ before k v after new, todo = before ++ .writeField k v :: after ∧ r = errorResponse (.range k) ∧ OutOfRange k v ∧
    t.requests = s.requests ++ new ∧ ∀ q ∈ new, ∃ m ∈ before, m.request s = some q

/-- A step that ended before, having sent at most its own request. -/
theorem StoppedOutOfRange.cons {m : MicroOp} {rest : List MicroOp} {s s' t : State} {r : Response} {sent : List Request}
    (h : StoppedOutOfRange rest s' t r) (hc : s.sameConfiguration s') (hsent : s'.requests = s.requests ++ sent)
    (hm : ∀ q ∈ sent, m.request s = some q) : StoppedOutOfRange (m :: rest) s t r := by
  obtain ⟨before, k, v, after, new, htodo, hr, hv, hnew, hbefore⟩ := h
  refine ⟨m :: before, k, v, after, sent ++ new, by simp [htodo], hr, hv, by simp [hnew, hsent], fun q hq => ?_⟩
  rcases List.mem_append.1 hq with hq | hq
  · exact ⟨m, by simp, hm q hq⟩
  · obtain ⟨m', hm', hq'⟩ := hbefore q hq
    exact ⟨m', by simp [hm'], request_of_sameConfiguration hc m' ▸ hq'⟩

theorem runSteps_rangeError {i : Instr} {todo : List MicroOp} {issued : Bool} {got : List Byte} {s t : State}
    {r : Response} (h : runSteps i todo issued got s = .next t) (hr : t.responses = s.responses ++ [r])
    (hst : r.st = .rangeError) : StoppedOutOfRange todo s t r := by
  induction todo generalizing issued got s with
  | nil =>
    cases h
    cases eq_of_respond hr
    cases hst
  | cons m rest ih =>
    rcases performStep_cases m issued s with ⟨e, hc, hp⟩ | ⟨-, -, -, hp⟩ | ⟨e, es, -, -, -, hp⟩ | ⟨x, -, -, hp⟩ |
      ⟨q, -, -, -, -, hp⟩ | ⟨q, a, as, -, hq, -, -, ⟨out, -, -, hp⟩ | ⟨e, -, hd, hp⟩ | ⟨-, hp⟩⟩
    · rw [runSteps_failed hp] at h
      cases h
      cases eq_of_respond hr
      obtain ⟨k, v, rfl, rfl, hv⟩ := check_eq_some hc
      exact ⟨[], k, v, rest, [], rfl, rfl, hv, by simp, by simp⟩
    · rw [runSteps_waiting hp] at h
      cases h
      simp at hr
    · rw [runSteps_done hp] at h
      exact (ih h hr).cons (sent := []) ⟨rfl, rfl, rfl, rfl, rfl⟩ (by simp) (by simp)
    · rw [runSteps_refused hp] at h
      cases h
    · rw [runSteps_waiting hp] at h
      cases h
      simp at hr
    · rw [runSteps_done hp] at h
      have hrun := ih h (by simpa using hr)
      cases issued with
      | true => exact hrun.cons (sent := []) ⟨rfl, rfl, rfl, rfl, rfl⟩ (by simp) (by simp)
      | false => exact hrun.cons (sent := [q]) ⟨rfl, rfl, rfl, rfl, rfl⟩ (by simp) (by simpa using hq)
    · rw [runSteps_failed hp] at h
      cases h
      cases eq_of_respond hr (by simp)
      cases hst.symm.trans (receive_error_st hd)
    · rw [runSteps_failed hp] at h
      cases h
      cases eq_of_respond hr (by simp)
      cases hst

/-- A run without a field write answers no `RangeError`. -/
theorem runSteps_no_rangeError {i : Instr} {todo : List MicroOp} {issued : Bool} {got : List Byte} {s t : State}
    {r : Response} (hw : ∀ k v, MicroOp.writeField k v ∉ todo) (h : runSteps i todo issued got s = .next t)
    (hr : t.responses = s.responses ++ [r]) : r.st ≠ .rangeError := by
  intro hst
  obtain ⟨before, k, v, after, -, rfl, -⟩ := runSteps_rangeError h hr hst
  exact hw k v (by simp)

/-! ## The codec -/

theorem bcddec_no_rangeError {b : Byte} {s t : State} {r : Response} (h : exec (.bcddec b) s = .next t)
    (hr : t.responses = s.responses ++ [r]) : r.st ≠ .rangeError := by
  simp only [exec, execBcddec] at h
  split at h
  · cases h; cases eq_of_respond hr; nofun
  · cases h; cases eq_of_respond hr; nofun

theorem bcdenc_no_rangeError {v : Byte} {s t : State} {r : Response} (h : exec (.bcdenc v) s = .next t)
    (hr : t.responses = s.responses ++ [r]) : r.st ≠ .rangeError := by
  simp only [exec, execBcdenc] at h
  split at h
  · cases h; cases eq_of_respond hr; nofun
  · cases h; cases eq_of_respond hr; nofun

/-! ## Write plans -/

/-- A write plan writes present fields, with their values, and before a field only other ones (R144, R149). -/
theorem writePlan_split {x : Byte} {f : FieldBytes} {before after : List MicroOp} {k : TimeField} {v : Byte}
    (h : writePlan x f = before ++ .writeField k v :: after) :
    presentIn x k = true ∧ v = f.get k ∧ ∀ m ∈ before, ∃ j, j ≠ k ∧ m = .writeField j (f.get j) := by
  obtain ⟨earlier, others, hfields, rfl, hrest⟩ := List.map_eq_append_iff.1 h
  obtain ⟨k', later, rfl, hk, -⟩ := List.map_eq_cons_iff.1 hrest
  cases hk
  have hnodup : (earlier ++ k :: later).Nodup := hfields ▸ List.Nodup.filter _ (by decide : writeOrder.Nodup)
  have hpresent : k ∈ writeOrder.filter (presentIn x) := by simp [hfields]
  refine ⟨(List.mem_filter.1 hpresent).2, rfl, fun m hm => ?_⟩
  obtain ⟨j, hj, rfl⟩ := List.mem_map.1 hm
  exact ⟨j, fun hjk => (List.nodup_append.1 hnodup).2.2 j hj k (by simp) hjk, rfl⟩

/-- From `s` to `t`, `r` is the `RangeError` of field k for the value `v`, and no request was made for that field. -/
def AnswersRangeError (s t : State) (r : Response) (k : TimeField) (v : Byte) : Prop :=
  r = errorResponse (.range k) ∧ OutOfRange k v ∧ ∃ new, t.requests = s.requests ++ new ∧
    (legalOffsets s.offsets → ∀ dev val, Request.wrreg dev (s.offsets.get k) val ∉ new)

theorem runSteps_writePlan_rangeError {i : Instr} {x : Byte} {f : FieldBytes} {issued : Bool} {got : List Byte}
    {s t : State} {r : Response} (h : runSteps i (writePlan x f) issued got s = .next t)
    (hr : t.responses = s.responses ++ [r]) (hst : r.st = .rangeError) :
    ∃ k, presentIn x k = true ∧ AnswersRangeError s t r k (f.get k) := by
  obtain ⟨before, k, v, after, new, hplan, hk, hv, hnew, hbefore⟩ := runSteps_rangeError h hr hst
  obtain ⟨hx, rfl, hothers⟩ := writePlan_split hplan
  refine ⟨k, hx, hk, hv, new, hnew, fun ho dev val hmem => ?_⟩
  obtain ⟨m, hm, hreq⟩ := hbefore _ hmem
  obtain ⟨j, hjk, rfl⟩ := hothers m hm
  simp only [MicroOp.request, Option.some.injEq, Request.wrreg.injEq] at hreq
  obtain ⟨-, hoffset, -⟩ := hreq
  exact hjk (ho.2 j k hoffset)

/-! ## The composite -/

theorem isoWeekday_bounds (Y M D : Int) : 1 ≤ isoWeekday Y M D ∧ isoWeekday Y M D ≤ 7 := by
  simp only [isoWeekday]
  omega

/-- The computed weekday always passes the range check (R153). -/
theorem compositeWeekday_inRange (c : Byte) (f : FieldBytes) : ¬ OutOfRange .wday (compositeWeekday c f) := by
  have h := isoWeekday_bounds (fullYear c f.year) f.month.toNat f.dom.toNat
  simp only [OutOfRange, compositeWeekday, BitVec.toNat_ofInt, fieldLo, fieldHi]
  omega

theorem compositeFields_get {c : Byte} {f : FieldBytes} {k : TimeField} (hk : k ≠ .wday) :
    (compositeFields c f).get k = f.get k := by
  cases k with
  | wday => exact absurd rfl hk
  | _ => rfl

theorem runSteps_compositePlan_rangeError {i : Instr} {c : Byte} {f : FieldBytes} {issued : Bool} {got : List Byte}
    {s t : State} {r : Response} (h : runSteps i (compositePlan c f) issued got s = .next t)
    (hr : t.responses = s.responses ++ [r]) (hst : r.st = .rangeError) :
    ∃ k, k ≠ .wday ∧ AnswersRangeError s t r k (f.get k) := by
  obtain ⟨k, -, hanswer⟩ := runSteps_writePlan_rangeError h hr hst
  have hk : k ≠ .wday := by
    rintro rfl
    exact compositeWeekday_inRange c f hanswer.2.1
  exact ⟨k, hk, compositeFields_get (c := c) hk ▸ hanswer⟩

/-! ## Every operation -/

/-- Settles O54: only the three operations with a write plan can answer it, and their plans say for which field. -/
theorem rangeErrorNamesAFieldOutOfRange : Obligations.RangeErrorNamesAFieldOutOfRange := by
  intro i s t r h hr hst
  cases i with
  | wrall x f =>
    obtain ⟨k, hx, hk, hv, new, hnew, hno⟩ := runSteps_writePlan_rangeError h hr hst
    exact ⟨k, f.get k, new, hk, hv, .inl ⟨x, f, rfl, hx, rfl⟩, hnew, hno⟩
  | wrcomp c f =>
    obtain ⟨k, hw, hk, hv, new, hnew, hno⟩ := runSteps_compositePlan_rangeError h hr hst
    exact ⟨k, f.get k, new, hk, hv, .inr (.inl ⟨c, f, rfl, hw, rfl⟩), hnew, hno⟩
  | wrnow =>
    obtain ⟨k, hw, hk, hv, new, hnew, hno⟩ := runSteps_compositePlan_rangeError h hr hst
    exact ⟨k, _, new, hk, hv, .inr (.inr ⟨rfl, hw, rfl⟩), hnew, hno⟩
  | bcddec b => exact absurd hst (bcddec_no_rangeError h hr)
  | bcdenc v => exact absurd hst (bcdenc_no_rangeError h hr)
  | rdall c => exact absurd hst (runSteps_no_rangeError (by simp [readPlan]) h hr)
  | rdtemp => exact absurd hst (runSteps_no_rangeError (by simp) h hr)
  | setaddr a => exact absurd hst (runSteps_no_rangeError (by simp) h hr)
  | mrdb a => exact absurd hst (runSteps_no_rangeError (by simp) h hr)
  | mwrb a v => exact absurd hst (runSteps_no_rangeError (by simp) h hr)

end Sys2Proof.Machine
end

section
/-! # The decoder and the encoder undo each other (R91 to R99)

Each format's encoder puts its operands where the decoder reads them, and leaves the reserved bits zero; a word whose
reserved bits are zero is put together again from what the decoder reads. So decode is a left inverse of encode on the
well-formed operations, and encode one of decode on the legal words. -/

namespace Sys2Proof

/-! ## A word is the encoding of what the decoder reads -/

theorem encodeB_eq {w : CommandWord} (h : w.extractLsb' 8 56 = 0) : encodeB (opcodeByte w) (payloadByte w 0) = w := by
  have hw := split_as_formatB w
  rwa [h] at hw

theorem encodeZ_eq {w : CommandWord} (h : w.extractLsb' 0 64 = 0) : encodeZ (opcodeByte w) = w := by
  have hw := split_at_opcode w
  rwa [h] at hw

theorem encodeA_eq {w : CommandWord} (h : w.extractLsb' 24 40 = 0) :
    encodeA (opcodeByte w) (payloadByte w 2) (w.extractLsb' 0 16) = w := by
  have hw := split_as_formatA w
  rwa [h] at hw

/-- Where all of CW[63:16] is zero, the data byte of Format A is zero too (R93). -/
theorem payloadByte_two_eq_zero {w : CommandWord} (h : w.extractLsb' 16 48 = 0) :
    payloadByte w 2 = 0 ∧ w.extractLsb' 24 40 = 0 := by
  have hbit : ∀ i, i < 48 → w.getLsbD (16 + i) = false := fun i hi => by
    simpa [hi] using congrArg (fun v => v.getLsbD i) h
  constructor
  · apply BitVec.eq_of_getLsbD_eq
    intro i hi
    simpa [payloadByte, hi] using hbit i (by omega)
  · apply BitVec.eq_of_getLsbD_eq
    intro i hi
    have := hbit (8 + i) (by omega)
    rw [← Nat.add_assoc] at this
    simpa [hi] using this

theorem encodeA_eq_of_no_data {w : CommandWord} (h : w.extractLsb' 16 48 = 0) :
    encodeA (opcodeByte w) 0 (w.extractLsb' 0 16) = w := by
  obtain ⟨hdata, hz⟩ := payloadByte_two_eq_zero h
  rw [← hdata]
  exact encodeA_eq hz

/-! ## Both directions -/

/-- Settles O2: each format's encoder puts the operands where the decoder reads them. -/
theorem decodeOfEncodeIsTheOperation : Obligations.DecodeOfEncodeIsTheOperation := by
  intro i hi
  cases i with
  | bcddec b =>
    obtain ⟨hop, hb, hz⟩ := encodeB_parts 0x01 b
    simp only [decode, encode, Instr.opcode, decodeChecked, hop, hb, hz]
    rfl
  | bcdenc v =>
    obtain ⟨hop, hb, hz⟩ := encodeB_parts 0x02 v
    simp only [decode, encode, Instr.opcode, decodeChecked, hop, hb, hz]
    rfl
  | rdall c =>
    obtain ⟨hop, hb, hz⟩ := encodeB_parts 0x10 c
    simp only [decode, encode, Instr.opcode, decodeChecked, hop, hb, hz]
    rfl
  | wrall x f =>
    obtain ⟨hop, hx, hf, h7⟩ := encodeF_parts 0x11 x f
    have hx7 : x.getLsbD 7 = false := by simpa [Instr.wellFormed] using hi
    simp only [decode, encode, Instr.opcode, decodeChecked, hop, hx, hf, h7, hx7]
    rfl
  | wrcomp c f =>
    obtain ⟨hop, hc, hf, -⟩ := encodeF_parts 0x12 c f
    simp only [decode, encode, Instr.opcode, hop, hc, hf]
    rfl
  | wrnow =>
    obtain ⟨hop, hz⟩ := encodeZ_parts 0x13
    simp only [decode, encode, Instr.opcode, decodeChecked, hop, hz]
    rfl
  | rdtemp =>
    obtain ⟨hop, hz⟩ := encodeZ_parts 0x14
    simp only [decode, encode, Instr.opcode, decodeChecked, hop, hz]
    rfl
  | setaddr a =>
    obtain ⟨hop, -, ha, -, hz⟩ := encodeA_parts 0x20 0 a
    simp only [decode, encode, Instr.opcode, decodeChecked, hop, ha, hz rfl]
    rfl
  | mrdb a =>
    obtain ⟨hop, -, ha, -, hz⟩ := encodeA_parts 0x21 0 a
    simp only [decode, encode, Instr.opcode, decodeChecked, hop, ha, hz rfl]
    rfl
  | mwrb a v =>
    obtain ⟨hop, hv, ha, hz, -⟩ := encodeA_parts 0x22 v a
    simp only [decode, encode, Instr.opcode, decodeChecked, hop, hv, ha, hz]
    rfl

/-- A conditional value is one of its two. -/
theorem of_ite_eq {α : Type} {c : Prop} [Decidable c] {a b x : α} {P : Prop} (ha : c → a = x → P) (hb : b = x → P)
    (h : (if c then a else b) = x) : P := by
  split at h
  · next hc => exact ha hc h
  · exact hb h

/-- What a legal word decodes to is well formed, and the word is its encoding. -/
theorem encode_of_decode {w : CommandWord} {i : Instr} (h : decode w = .command i) :
    i.wellFormed = true ∧ encode i = w := by
  revert h
  unfold decode
  refine of_ite_eq (fun h01 h => ?_) (of_ite_eq (fun h02 h => ?_) (of_ite_eq (fun h10 h => ?_)
    (of_ite_eq (fun h11 h => ?_) (of_ite_eq (fun h12 h => ?_) (of_ite_eq (fun h13 h => ?_) (of_ite_eq (fun h14 h => ?_)
    (of_ite_eq (fun h20 h => ?_) (of_ite_eq (fun h21 h => ?_) (of_ite_eq (fun h22 h => ?_) nofun)))))))))
  on_goal 5 =>
    cases h
    exact ⟨rfl, (h12 ▸ split_as_formatF w : encodeF 0x12 _ _ = w)⟩
  all_goals obtain ⟨hz, rfl⟩ := decodeChecked_command.1 h
  · exact ⟨rfl, (h01 ▸ encodeB_eq (eq_of_beq hz) : encodeB 0x01 _ = w)⟩
  · exact ⟨rfl, (h02 ▸ encodeB_eq (eq_of_beq hz) : encodeB 0x02 _ = w)⟩
  · exact ⟨rfl, (h10 ▸ encodeB_eq (eq_of_beq hz) : encodeB 0x10 _ = w)⟩
  · refine ⟨?_, (h11 ▸ split_as_formatF w : encodeF 0x11 _ _ = w)⟩
    simpa [Instr.wellFormed, payloadByte] using hz
  · exact ⟨rfl, (h13 ▸ encodeZ_eq (eq_of_beq hz) : encodeZ 0x13 = w)⟩
  · exact ⟨rfl, (h14 ▸ encodeZ_eq (eq_of_beq hz) : encodeZ 0x14 = w)⟩
  · exact ⟨rfl, (h20 ▸ encodeA_eq_of_no_data (eq_of_beq hz) : encodeA 0x20 0 _ = w)⟩
  · exact ⟨rfl, (h21 ▸ encodeA_eq_of_no_data (eq_of_beq hz) : encodeA 0x21 0 _ = w)⟩
  · exact ⟨rfl, (h22 ▸ encodeA_eq (eq_of_beq hz) : encodeA 0x22 _ _ = w)⟩

/-- Settles O3: a legal word is the word of what it decodes to; an illegal one is no operation's, as that would decode
back to the operation (O2). -/
theorem everyWordIsOneOperationOrIllegal : Obligations.EveryWordIsOneOperationOrIllegal := by
  intro w
  cases h : decode w with
  | command i => exact .inl ⟨i, rfl, encode_of_decode h⟩
  | illegal e =>
    refine .inr ⟨e, rfl, fun i hi he => ?_⟩
    have := decodeOfEncodeIsTheOperation i hi
    rw [he, h] at this
    cases this

/-- Settles O1, by running the decoder on the ten words. -/
theorem tableWordsDecodeToTheirOperations : Obligations.TableWordsDecodeToTheirOperations := by
  refine ⟨?_, ?_, ?_, ?_, ?_, ?_, ?_, ?_, ?_, ?_⟩ <;> decide

end Sys2Proof
end

section
/-! # The codec and the arithmetic of the fields (R124, R125, R140, R142, R147, R154, R159)

The digits of a byte are its quotient and remainder by 16; a mask keeps the remainder by a power of two; the full year, the
weekday and the temperature are linear arithmetic with division. -/

namespace Sys2Proof.Machine

/-! ## The codec's answers -/

theorem exec_bcddec_valid {b : Byte} (h : bcdValid b = true) (s : State) :
    exec (.bcddec b) s = .next (respond (okResponse (.val (bcdDecode b))) s) := by
  simp [exec, execBcddec, h]

theorem exec_bcddec_invalid {b : Byte} (h : ¬ bcdValid b = true) (s : State) :
    exec (.bcddec b) s = .next (raiseError (.undefinedDecode none) s) := by
  simp [exec, execBcddec, h]

theorem exec_bcdenc_le {v : Byte} (h : v.toNat ≤ 99) (s : State) :
    exec (.bcdenc v) s = .next (respond (okResponse (.bcd (bcdEncode v))) s) := by
  simp [exec, execBcdenc, h]

theorem exec_bcdenc_gt {v : Byte} (h : 99 < v.toNat) (s : State) :
    exec (.bcdenc v) s =
      .next (respond (okResponse (.bcd (Config.encOor s.freeDraws))) { s with freeDraws := s.freeDraws + 1 }) := by
  simp [exec, execBcdenc, Nat.not_le.2 h]

/-- Settles O11: a byte is valid exactly when both digits are at most 9, and the two cases of R124 follow. -/
theorem bcddecAnswersTheNumberOrRejects : Obligations.BcddecAnswersTheNumberOrRejects := by
  refine fun b s => ⟨fun htens hunits => ?_, fun hbad => ?_⟩
  · rw [exec_bcddec_valid ((bcdValid_iff b).2 ⟨htens, hunits⟩), bcdDecode, bcdTens_eq_div, bcdUnits_eq_mod]
    rfl
  · have hinvalid : ¬ bcdValid b = true := by
      rw [bcdValid_iff]
      omega
    rw [exec_bcddec_invalid hinvalid]
    rfl

/-- Settles O12, by the packed byte's value up to 99 and the free value above. -/
theorem bcdencAnswersThePackedByte : Obligations.BcdencAnswersThePackedByte := by
  refine fun v s => ⟨fun hv => ?_, fun hv => ⟨_, exec_bcdenc_gt hv s⟩⟩
  have hbyte : bcdEncode v = BitVec.ofNat 8 (16 * (v.toNat / 10) + v.toNat % 10) := by
    rw [← bcdEncode_toNat hv, BitVec.ofNat_toNat, BitVec.setWidth_eq]
  rw [exec_bcdenc_le hv, hbyte]
  rfl

/-! ## Field reads -/

/-- A masked byte, valid, is decoded to at most 10 times its high nibble plus 9. -/
theorem fieldDecode_some {k : TimeField} {raw v : Byte} (h : fieldDecode k raw = some v) :
    v.toNat ≤ 10 * ((fieldRemap k raw &&& fieldMask k).toNat / 16) + 9 ∧ v.toNat ≤ 99 := by
  simp only [fieldDecode] at h
  split at h
  · next hvalid =>
    cases h
    rw [bcdDecode_toNat hvalid]
    have := (bcdValid_iff _).1 hvalid
    omega
  · cases h

theorem and_mask_le (b m : Byte) : (b &&& m).toNat ≤ m.toNat := by
  rw [BitVec.toNat_and]
  exact Nat.and_le_right

/-- Off the hours sentinel, masking the raw byte beforehand makes no difference. -/
theorem fieldDecode_masked {k : TimeField} {raw : Byte} (h : ¬(k = .hour ∧ raw = hourSentinel))
    (hm : ¬(k = .hour ∧ raw &&& fieldMask k = hourSentinel)) :
    fieldDecode k raw = fieldDecode k (raw &&& fieldMask k) := by
  rw [fieldDecode_of_not_sentinel h, fieldDecode_of_not_sentinel hm, BitVec.and_assoc, BitVec.and_self]

/-- Settles O14: a read is the mask and the decode, and the mask bounds the high nibble. -/
theorem fieldReadStripsReservedBits : Obligations.FieldReadStripsReservedBits := by
  refine ⟨fun raw => ⟨fieldDecode_masked (k := .sec) nofun nofun, fieldDecode_of_not_sentinel (k := .sec) nofun⟩,
    fun raw hraw => ⟨fieldDecode_masked (k := .hour) (fun h => hraw h.2) fun h => ?_,
      fieldDecode_of_not_sentinel (k := .hour) fun h => hraw h.2⟩,
    fun k raw hs hh => ?_, fun raw v h => ?_, fun raw v h => ?_, fun k raw v h => (fieldDecode_some h).2⟩
  · have := and_mask_le raw (fieldMask .hour)
    rw [h.2] at this
    exact absurd this (by decide)
  · have hmask : raw &&& fieldMask k = raw := by
      cases k with
      | sec => exact absurd rfl hs
      | hour => exact absurd rfl hh
      | _ => exact BitVec.and_allOnes
    rw [fieldDecode_of_not_sentinel fun h => hh h.1, hmask]
  · have hle : (fieldRemap .sec raw &&& fieldMask .sec).toNat ≤ 127 := and_mask_le _ _
    have := (fieldDecode_some h).1
    omega
  · have hle : (fieldRemap .hour raw &&& fieldMask .hour).toNat ≤ 63 := and_mask_le _ _
    have := (fieldDecode_some h).1
    omega

/-! ## The year, the weekday, the temperature -/

/-- Settles O18: the bounds put the year inside the range of 16 bits signed. -/
theorem fullYearFitsSixteenBits : Obligations.FullYearFitsSixteenBits := by
  intro c y hy
  have hc : c.toNat < 256 := c.isLt
  have hlo : -100 ≤ fullYear c y := by
    simp only [fullYear]
    omega
  have hhi : fullYear c y ≤ 25499 := by
    simp only [fullYear]
    omega
  refine ⟨hlo, hhi, ?_⟩
  rw [BitVec.toInt_ofInt_eq_self] <;> omega

/-- A day later is the next weekday. -/
theorem isoWeekday_next_day (Y M D : Int) :
    isoWeekday Y M (D + 1) = if isoWeekday Y M D = 7 then 1 else isoWeekday Y M D + 1 := by
  split
  · next h =>
    simp only [isoWeekday] at h ⊢
    omega
  · next h =>
    simp only [isoWeekday] at h ⊢
    omega

/-- 400 years are a whole number of weeks. -/
theorem isoWeekday_period (Y M D : Int) : isoWeekday (Y + 400) M D = isoWeekday Y M D := by
  simp only [isoWeekday]
  omega

/-- The leap days up to a year are one more than up to the year before exactly when it is a leap year. -/
theorem leapDays_eq (Y : Int) :
    (leapYear Y → Y / 4 - Y / 100 + Y / 400 = (Y - 1) / 4 - (Y - 1) / 100 + (Y - 1) / 400 + 1) ∧
    (¬ leapYear Y → Y / 4 - Y / 100 + Y / 400 = (Y - 1) / 4 - (Y - 1) / 100 + (Y - 1) / 400) := by
  simp only [leapYear]
  have h4 : (Y - 1) / 4 = if Y % 4 = 0 then Y / 4 - 1 else Y / 4 := by split <;> omega
  have h100 : (Y - 1) / 100 = if Y % 100 = 0 then Y / 100 - 1 else Y / 100 := by split <;> omega
  have h400 : (Y - 1) / 400 = if Y % 400 = 0 then Y / 400 - 1 else Y / 400 := by split <;> omega
  rw [h4, h100, h400]
  split_ifs <;> omega

/-- The day after the last of a month is the first of the next: the day number past the end names the same weekday. -/
theorem isoWeekday_past_month_end {Y M D : Int} (h : lastDayOfMonth Y M D) (hM : M ≠ 12) :
    isoWeekday Y (M + 1) 1 = isoWeekday Y M (D + 1) := by
  rcases h with ⟨rfl, hlong⟩ | ⟨rfl, hshort⟩ | ⟨rfl, ⟨rfl, hleap⟩ | ⟨rfl, hcommon⟩⟩
  · rcases hlong with rfl | rfl | rfl | rfl | rfl | rfl | rfl <;> simp only [isoWeekday] <;> omega
  · rcases hshort with rfl | rfl | rfl | rfl <;> simp only [isoWeekday] <;> omega
  · have := (leapDays_eq Y).1 hleap
    norm_num [isoWeekday]
    omega
  · have := (leapDays_eq Y).2 hcommon
    norm_num [isoWeekday]
    omega

theorem isoWeekday_past_year_end (Y : Int) : isoWeekday (Y + 1) 1 1 = isoWeekday Y 12 (31 + 1) := by
  simp only [isoWeekday]
  omega

/-- Settles O24: the day after the last of a month or a year is the next day number, which is the next weekday. -/
theorem isoWeekdayIsACalendarWeekday : Obligations.IsoWeekdayIsACalendarWeekday := by
  refine ⟨by decide, fun Y M D => ⟨(isoWeekday_bounds Y M D).1, (isoWeekday_bounds Y M D).2, isoWeekday_next_day Y M D,
    isoWeekday_period Y M D⟩, fun Y M D h hM => ?_, fun Y => ?_⟩
  · rw [isoWeekday_past_month_end h hM, isoWeekday_next_day]
  · rw [isoWeekday_past_year_end, isoWeekday_next_day]

theorem tempQ_toNat (w q : Byte) : (tempQ w q).toNat = 4 * w.toNat + q.toNat / 64 := by
  have hw : w.toNat < 256 := w.isLt
  have hq : q.toNat < 256 := q.isLt
  simp only [tempQ, BitVec.toNat_add, BitVec.toNat_mul, BitVec.toNat_setWidth, BitVec.extractLsb'_toNat,
    BitVec.toNat_ofNat, Nat.shiftRight_eq_div_pow]
  omega

/-- Settles O28, from the temperature's value. -/
theorem temperatureIgnoresLowFractionBits : Obligations.TemperatureIgnoresLowFractionBits := by
  refine ⟨tempQ_toNat, fun w q r h => ?_⟩
  rw [tempQ, tempQ, h]

end Sys2Proof.Machine
end

section
/-! # The command port, the codes, and reset (R97 to R103, R241 to R247)

With `RST` not asserted an `IDLE` block does what the host presents: what each event makes of the state is one equation. -/

namespace Sys2Proof.Machine

variable {s : State} {w : CommandWord} {rest : List HostEvent}

/-! ## The host's events -/

theorem step_reset {p : Straps} (h : s.rst = some p) : step s = .next (applyReset p s) := by
  simp [step, h]

/-- Settles O46: nothing is presented, and the block stays as it is. -/
theorem idleBlockDoesNothing : Obligations.IdleBlockDoesNothing := by
  intro s h0 hs hq
  simp [step, h0, hs, hostStep, hq]

theorem step_command (h0 : s.rst = none) (hs : s.seq = .idle) (hq : s.hostQueue = .command w :: rest) :
    step s = acceptCommand w { s with hostQueue := rest } := by
  simp [step, h0, hs, hostStep, hq]

theorem step_pause {extra : Nat} (h0 : s.rst = none) (hs : s.seq = .idle) (hq : s.hostQueue = .pause extra :: rest) :
    step s = pauseCommand extra { s with hostQueue := rest } := by
  simp [step, h0, hs, hostStep, hq]

/-- Settles O4: the word is taken from the port and decoded before anything else. -/
theorem stepRunsThePresentedOperation : Obligations.StepRunsThePresentedOperation := by
  intro s w rest i h0 hs hq hd
  rw [step_command h0 hs hq]
  simp [acceptCommand, hd]

/-- Settles O5: an illegal word is an error with nothing run, and the sequencer was `IDLE` before. -/
theorem illegalWordIsAnsweredWithoutEffect : Obligations.IllegalWordIsAnsweredWithoutEffect := by
  intro s w rest e h0 hs hq hd
  rw [step_command h0 hs hq]
  simp [acceptCommand, hd, raiseError, respond, errorResponse, hs]

/-- Settles O53, by the definitions of the codes. -/
theorem portCodesAreAsTheSpecSays : Obligations.PortCodesAreAsTheSpecSays := by
  refine ⟨by decide, by decide, by decide, ?_, ?_, ?_, ?_, ?_⟩ <;> intros <;> rfl

/-! ## Reset -/

theorem outstanding_idle (h : s.seq = .idle) : s.outstanding = none := by
  simp [State.outstanding, h]

/-- Settles O49, field by field of the reset state. -/
theorem resetStateIsAsTheSpecSays : Obligations.ResetStateIsAsTheSpecSays :=
  ⟨rfl, rfl, rfl, rfl, outstanding_idle rfl, rfl, rfl⟩

/-- Settles O48: the step is the reset, which leaves the block `IDLE`; the chips and the answers depend on whether a
request was outstanding. -/
theorem resetAbandonsTheOperation : Obligations.ResetAbandonsTheOperation := by
  intro s p h
  refine ⟨applyReset p s, step_reset h, rfl, rfl, rfl, rfl, rfl, outstanding_idle rfl, rfl, rfl, rfl, rfl, rfl, rfl, rfl,
    applyReset_none p, fun r hr => ?_⟩
  exact (applyReset_some p hr).symm

/-- No request ends a write cycle: only time does (R196, R247). -/
theorem writeCycle_after {c : Chips} (h : c.writeCycle = true) (capacity : Nat) (ok : Bool) (r : Request) :
    (c.after capacity ok r).writeCycle = true := by
  cases r with
  | wrblk dev hi lo v =>
    cases v with
    | none => exact h
    | some v => rfl
  | _ => exact h

theorem readBack_of_writeCycle {c : Chips} (h : c.writeCycle = true) (a : LinearAddress) : c.readBack a = none := by
  simp [Chips.readBack, h]

theorem writeCycle_applyReset (p : Straps) (h : s.chips.writeCycle = true) : (applyReset p s).chips.writeCycle = true := by
  cases ho : s.outstanding with
  | none => rwa [(applyReset_none p ho).1]
  | some r =>
    rw [(applyReset_some p ho).1]
    exact writeCycle_after h _ _ _

theorem pauseCommand_sole {extra : Nat} (h : s.soleOwner = true) : pauseCommand extra s = .next (hostPause extra s) := by
  simp [pauseCommand, h]

theorem pauseCommand_shared {extra : Nat} (h : s.soleOwner = false) :
    pauseCommand extra s = .refused .transportShared := by
  simp [pauseCommand, h]

/-- Settles O50: a reset keeps a write cycle, and starts one where a data write was outstanding; the pause ends it. -/
theorem pauseAfterResetEndsTheWriteCycle : Obligations.PauseAfterResetEndsTheWriteCycle := by
  refine ⟨fun s p a h => ?_, fun s p a dev hi lo v h => ?_, fun s extra rest h0 hs hq ho => ?_⟩
  · have hw := writeCycle_applyReset p h
    exact ⟨hw, readBack_of_writeCycle hw a⟩
  · have hw : (applyReset p s).chips.writeCycle = true := by
      rw [(applyReset_some p h).1]
      rfl
    exact ⟨hw, readBack_of_writeCycle hw a⟩
  · refine ⟨_, (step_pause h0 hs hq).trans (pauseCommand_sole ho), rfl, ?_, rfl, rfl, rfl⟩
    exact (Nat.add_assoc _ _ _).symm

end Sys2Proof.Machine
end

section
/-! # Two runs side by side: what an operation does not depend on (R32, R107, R156, R162)

A run of steps looks at the state only through its inputs: the addresses and offsets, the link, the other users, the
answers and the settle times to come. So a relation of states that implies equal inputs and that every named update keeps
is kept by whole runs. Four obligations are each one such relation. -/

namespace Sys2Proof.Machine

/-! ## The step sequence of an operation -/

/-- The two operations that run no step sequence (R124, R125). -/
def isCodec : Instr → Bool
  | .bcddec _ | .bcdenc _ => true
  | .rdall _ | .wrall _ _ | .wrcomp _ _ | .wrnow | .rdtemp | .setaddr _ | .mrdb _ | .mwrb _ _ => false

/-- The step sequence of an operation accepted while `HOSTTIME` is `hostTime`. -/
def planOf (hostTime : BitVec 64) : Instr → List MicroOp
  | .bcddec _ | .bcdenc _ => []
  | .rdall _ => readPlan
  | .wrall x f => writePlan x f
  | .wrcomp c f => compositePlan c f
  | .wrnow => compositePlan (extraByteOfPayload hostTime) (FieldBytes.ofPayload hostTime)
  | .rdtemp => [.readTempWhole, .readTempFrac]
  | .setaddr a => [.sendPointer a]
  | .mrdb a => [.sendPointer a, .readRaw]
  | .mwrb a v => [.sendData a v, .waitSettle]

theorem exec_eq_runSteps {i : Instr} (h : isCodec i = false) (s : State) :
    exec i s = runSteps i (planOf s.hostTime i) false [] s := by
  cases i with
  | bcddec b => cases h
  | bcdenc v => cases h
  | _ => rfl

/-- The codec answers at once, the answer and the count of free values depending on that count alone. -/
theorem exec_codec {i : Instr} (h : isCodec i = true) (n : Nat) :
    ∃ r n', ∀ s : State, s.freeDraws = n → exec i s = .next (respond r { s with freeDraws := n' }) := by
  cases i with
  | bcddec b =>
    by_cases hb : bcdValid b = true
    · exact ⟨_, n, by rintro s rfl; exact exec_bcddec_valid hb s⟩
    · exact ⟨_, n, by rintro s rfl; exact exec_bcddec_invalid hb s⟩
  | bcdenc v =>
    by_cases hv : v.toNat ≤ 99
    · exact ⟨_, n, by rintro s rfl; exact exec_bcdenc_le hv s⟩
    · exact ⟨okResponse (.bcd (Config.encOor n)), n + 1, by rintro s rfl; exact exec_bcdenc_gt (Nat.lt_of_not_le hv) s⟩
  | _ => cases h

theorem eq_of_exec_codec {i : Instr} {s t : State} (hi : isCodec i = true) (h : exec i s = .next t) :
    ∃ r n, t = respond r { s with freeDraws := n } := by
  obtain ⟨r, n, hn⟩ := exec_codec hi s.freeDraws
  rw [hn s rfl] at h
  cases h
  exact ⟨r, n, rfl⟩

/-! ## Related runs -/

/-- The parts of the state a run of steps looks at agree. -/
structure State.SameInputs (s u : State) : Prop where
  clockAddr : u.clockAddr = s.clockAddr
  memAddr : u.memAddr = s.memAddr
  linkOpen : u.linkOpen = s.linkOpen
  offsets : u.offsets = s.offsets
  soleOwner : u.soleOwner = s.soleOwner
  answers : u.answers = s.answers
  settleExtras : u.settleExtras = s.settleExtras

/-- Both outcomes are next states, related, or the same refusal. -/
inductive OutcomesRelated (Q : State → State → Prop) :
    Host.Outcome State Fault Refusal → Host.Outcome State Fault Refusal → Prop
  | next {t u : State} (h : Q t u) : OutcomesRelated Q (.next t) (.next u)
  | refused (x : Refusal) : OutcomesRelated Q (.refused x) (.refused x)

theorem OutcomesRelated.of_next {Q : State → State → Prop} {a b : Host.Outcome State Fault Refusal} {t : State}
    (h : OutcomesRelated Q a b) (ha : a = .next t) : ∃ u, b = .next u ∧ Q t u := by
  cases h with
  | next hq => cases ha; exact ⟨_, rfl, hq⟩
  | refused x => cases ha

theorem OutcomesRelated.refused_iff {Q : State → State → Prop} {a b : Host.Outcome State Fault Refusal}
    (h : OutcomesRelated Q a b) (x : Refusal) : a = .refused x ↔ b = .refused x := by
  cases h with
  | next hq => simp
  | refused y => exact Iff.rfl

/-- `R` implies equal inputs and every update inside a run keeps it; the updates that end a run, of the operation `i` on
one side and `j` on the other, lead to `Q`. -/
structure Simulation (i j : Instr) (R Q : State → State → Prop) : Prop where
  inputs : ∀ {s u}, R s u → s.SameInputs u
  send : ∀ r {s u}, R s u → R (sendRequest r s) (sendRequest r u)
  take : ∀ r a rest {s u}, R s u → R (takeAnswer r a rest s) (takeAnswer r a rest u)
  start : ∀ {s u}, R s u → R (startSettle s) (startSettle u)
  elapse : ∀ e es {s u}, R s u → R (elapseSettle e es s) (elapseSettle e es u)
  wait : ∀ got todo {s u}, R s u →
    Q (waitAt { instr := i, got := got, todo := todo } s) (waitAt { instr := j, got := got, todo := todo } u)
  answer : ∀ r {s u}, R s u → Q (respond r s) (respond r u)
  result : ∀ got, operationResult i got = operationResult j got

section
variable {i j : Instr} {R Q : State → State → Prop} {s u : State}

theorem State.SameInputs.request (h : s.SameInputs u) (m : MicroOp) : m.request u = m.request s := by
  cases m <;> simp only [MicroOp.request, h.clockAddr, h.memAddr, h.offsets]

theorem State.SameInputs.refuses (h : s.SameInputs u) (m : MicroOp) : u.refuses m = s.refuses m := by
  cases m <;> simp only [State.refuses, h.linkOpen, h.soleOwner]

theorem State.SameInputs.ready (h : s.SameInputs u) (hs : s.transportReady) : u.transportReady :=
  ⟨h.linkOpen.trans hs.1, h.soleOwner.trans hs.2⟩

theorem Simulation.outgoing (h : Simulation i j R Q) (r : Request) (issued : Bool) (hsu : R s u) :
    R (outgoing r issued s) (outgoing r issued u) := by
  cases issued with
  | true => exact hsu
  | false => exact h.send r hsu

/-- Runs of the same steps from related states are related. -/
theorem Simulation.runSteps (h : Simulation i j R Q) {todo : List MicroOp} {issued : Bool} {got : List Byte}
    (hsu : R s u) : OutcomesRelated Q (runSteps i todo issued got s) (runSteps j todo issued got u) := by
  induction todo generalizing issued got s u with
  | nil =>
    rw [runSteps_nil, runSteps_nil, h.result got]
    exact .next (h.answer _ hsu)
  | cons m rest ih =>
    have hin := h.inputs hsu
    rcases performStep_cases m issued s with ⟨e, hc, hp⟩ | ⟨rfl, ho, he, hp⟩ | ⟨e, es, rfl, ho, he, hp⟩ |
      ⟨x, hc, hx, hp⟩ | ⟨r, hc, hm, hr, ha, hp⟩ | ⟨r, a, as, hc, hm, hr, ha, hp⟩
    · rw [runSteps_failed hp, runSteps_failed (performStep_check hc issued u)]
      exact .next (h.answer _ hsu)
    · have hpu := performStep_settling (hin.soleOwner.trans ho) (hin.settleExtras.trans he) issued
      rw [runSteps_waiting hp, runSteps_waiting hpu]
      exact .next (h.wait _ _ (h.start hsu))
    · have hpu := performStep_settled (hin.soleOwner.trans ho) (hin.settleExtras.trans he) issued
      rw [runSteps_done hp, runSteps_done hpu]
      exact ih (h.elapse e es (h.start hsu))
    · rw [runSteps_refused hp, runSteps_refused (performStep_refused hc ((hin.refuses m).trans hx) issued)]
      exact .refused x
    · have hpu := performStep_silent (hin.ready hr) hc ((hin.request m).trans hm) (hin.answers.trans ha) issued
      rw [runSteps_waiting hp, runSteps_waiting hpu]
      exact .next (h.wait _ _ (h.outgoing r issued hsu))
    · have hmu := (hin.request m).trans hm
      have hau := hin.answers.trans ha
      have htake := h.take r a as (h.outgoing r issued hsu)
      rcases hp with ⟨out, hok, hd, hp⟩ | ⟨e, hok, hd, hp⟩ | ⟨hok, hp⟩
      · rw [runSteps_done hp, runSteps_done (performStep_done (hin.ready hr) hc hmu hau hok hd issued)]
        exact ih htake
      · rw [runSteps_failed hp, runSteps_failed (performStep_undecoded (hin.ready hr) hc hmu hau hok hd issued)]
        exact .next (h.answer _ htake)
      · rw [runSteps_failed hp, runSteps_failed (performStep_failed (hin.ready hr) hc hmu hau hok issued)]
        exact .next (h.answer _ htake)

end

/-! ## `HOSTTIME` -/

/-- `u` is `s` with another `HOSTTIME`. -/
def HostTimeApart (v : BitVec 64) (s u : State) : Prop := u = { s with hostTime := v }

theorem hostTime_simulation (i : Instr) (v : BitVec 64) : Simulation i i (HostTimeApart v) (HostTimeApart v) where
  inputs := by rintro s _ rfl; exact ⟨rfl, rfl, rfl, rfl, rfl, rfl, rfl⟩
  send := by rintro r s _ rfl; rfl
  take := by rintro r a rest s _ rfl; rfl
  start := by rintro s _ rfl; rfl
  elapse := by rintro e es s _ rfl; rfl
  wait := by rintro got todo s _ rfl; rfl
  answer := by rintro r s _ rfl; rfl
  result := fun _ => rfl

/-- Settles O26: the steps of an operation in progress do not look at `HOSTTIME`. -/
theorem hostTimeIsIgnoredWhileBusy : Obligations.HostTimeIsIgnoredWhileBusy := by
  intro s o v h0 hs
  have h := (hostTime_simulation o.instr v).runSteps (todo := o.todo) (issued := true) (got := o.got)
    (rfl : HostTimeApart v s { s with hostTime := v })
  rw [← step_busy h0 hs, ← step_busy (s := { s with hostTime := v }) h0 hs] at h
  refine ⟨fun t ht => ?_, h.refused_iff⟩
  obtain ⟨u, hu, rfl⟩ := h.of_next ht
  exact hu

/-! ## History -/

/-- `u` is `s` with other history, but for the requests and responses that `s` has beyond `rq₀` and `rs₀`: those `u` has
too, beyond `rq` and `rs`. -/
def HistoryApart (rq₀ rq : List Request) (rs₀ rs : List Response) (s u : State) : Prop :=
  ∃ newRq newRs c ms, s.requests = rq₀ ++ newRq ∧ s.responses = rs₀ ++ newRs ∧
    u = s.withHistory c (rq ++ newRq) (rs ++ newRs) ms

section
variable {rq₀ rq : List Request} {rs₀ rs : List Response} {s u : State}

theorem HistoryApart.respond (h : HistoryApart rq₀ rq rs₀ rs s u) (r : Response) :
    HistoryApart rq₀ rq rs₀ rs (respond r s) (respond r u) := by
  obtain ⟨newRq, newRs, c, ms, hrq, hrs, rfl⟩ := h
  exact ⟨newRq, newRs ++ [r], c, ms, hrq, by simp [hrs], by simp [Machine.respond, State.withHistory]⟩

theorem HistoryApart.sendRequest (h : HistoryApart rq₀ rq rs₀ rs s u) (r : Request) :
    HistoryApart rq₀ rq rs₀ rs (sendRequest r s) (sendRequest r u) := by
  obtain ⟨newRq, newRs, c, ms, hrq, hrs, rfl⟩ := h
  exact ⟨newRq ++ [r], newRs, c, ms, by simp [hrq], hrs, by simp [Machine.sendRequest, State.withHistory]⟩

theorem history_simulation (i : Instr) (rq₀ rq : List Request) (rs₀ rs : List Response) :
    Simulation i i (HistoryApart rq₀ rq rs₀ rs) (HistoryApart rq₀ rq rs₀ rs) where
  inputs := by rintro s _ ⟨newRq, newRs, c, ms, -, -, rfl⟩; exact ⟨rfl, rfl, rfl, rfl, rfl, rfl, rfl⟩
  send := fun r _ _ h => h.sendRequest r
  take := by rintro r a rest s _ ⟨newRq, newRs, c, ms, hrq, hrs, rfl⟩; exact ⟨newRq, newRs, _, ms, hrq, hrs, rfl⟩
  start := by rintro s _ ⟨newRq, newRs, c, ms, hrq, hrs, rfl⟩; exact ⟨newRq, newRs, c, ms, hrq, hrs, rfl⟩
  elapse := by rintro e es s _ ⟨newRq, newRs, c, ms, hrq, hrs, rfl⟩; exact ⟨newRq, newRs, _, _, hrq, hrs, rfl⟩
  wait := by rintro got todo s _ ⟨newRq, newRs, c, ms, hrq, hrs, rfl⟩; exact ⟨newRq, newRs, c, ms, hrq, hrs, rfl⟩
  answer := fun r _ _ h => h.respond r
  result := fun _ => rfl

/-- An operation run with other history. -/
theorem exec_history (i : Instr) (s : State) (c : Chips) (rq : List Request) (rs : List Response) (ms : Nat) :
    OutcomesRelated (HistoryApart s.requests rq s.responses rs) (exec i s) (exec i (s.withHistory c rq rs ms)) := by
  have hstart (n : Nat) : HistoryApart s.requests rq s.responses rs { s with freeDraws := n }
      { s.withHistory c rq rs ms with freeDraws := n } :=
    ⟨[], [], c, ms, by simp, by simp, by simp [State.withHistory]⟩
  cases hi : isCodec i with
  | true =>
    obtain ⟨r, n, h⟩ := exec_codec hi s.freeDraws
    rw [h s rfl, h (s.withHistory c rq rs ms) rfl]
    exact .next ((hstart n).respond r)
  | false =>
    rw [exec_eq_runSteps hi, exec_eq_runSteps hi]
    exact (history_simulation i _ rq _ rs).runSteps (hstart s.freeDraws)

end

/-- Settles O42: with any other history the run goes the same way, so what it adds to the two records is the same. -/
theorem operationsDoNotDependOnHistory : Obligations.OperationsDoNotDependOnHistory := by
  intro i s t h
  obtain ⟨-, -, newRq, newRs, -, -, hrq, hrs, -⟩ := (exec_history i s s.chips [] [] 0).of_next h
  refine ⟨newRq, newRs, hrq, hrs, fun c rq rs ms => ?_⟩
  obtain ⟨u, hu, newRq', newRs', c', ms', hrq', hrs', rfl⟩ := (exec_history i s c rq rs ms).of_next h
  obtain rfl := List.append_cancel_left (hrq.symm.trans hrq')
  obtain rfl := List.append_cancel_left (hrs.symm.trans hrs')
  exact ⟨c', ms', hu⟩

/-! ## Delegation -/

/-- `u` is `t` but for the name of the operation in progress, which is `j`. -/
def NameApart (j : Instr) (t u : State) : Prop := u = t.withBusyInstr j

theorem delegation_simulation {i j : Instr} (h : ∀ got, operationResult i got = operationResult j got) :
    Simulation i j Eq (NameApart j) where
  inputs := by rintro s _ rfl; exact ⟨rfl, rfl, rfl, rfl, rfl, rfl, rfl⟩
  send := by rintro r s _ rfl; rfl
  take := by rintro r a rest s _ rfl; rfl
  start := by rintro s _ rfl; rfl
  elapse := by rintro e es s _ rfl; rfl
  wait := by rintro got todo s _ rfl; rfl
  answer := by rintro r s _ rfl; rfl
  result := h

/-- Two operations with one step sequence and one way to make the result differ in their name alone. -/
theorem exec_delegates {i j : Instr} {s : State} (hi : isCodec i = false) (hj : isCodec j = false)
    (hplan : planOf s.hostTime j = planOf s.hostTime i) (hres : ∀ got, operationResult i got = operationResult j got) :
    OutcomesRelated (NameApart j) (exec i s) (exec j s) := by
  rw [exec_eq_runSteps hi, exec_eq_runSteps hj, hplan]
  exact (delegation_simulation hres).runSteps rfl

/-- Settles O22: WRCOMP's steps are WRALL's with all seven fields and the computed weekday. -/
theorem wrcompIsWrallWithComputedWeekday : Obligations.WrcompIsWrallWithComputedWeekday := by
  intro s c f g hg
  obtain rfl : g = compositeFields c f := hg
  have h : OutcomesRelated (NameApart _) (exec (.wrcomp c f) s) (exec (.wrall 0x7F (compositeFields c f)) s) :=
    exec_delegates rfl rfl rfl fun _ => rfl
  refine ⟨fun t ht => ?_, h.refused_iff⟩
  obtain ⟨u, hu, rfl⟩ := h.of_next ht
  exact hu

/-- The parts of a Format F payload (R94). -/
theorem formatF_payload_parts (c : Byte) (f : FieldBytes) :
    extraByteOfPayload (c ++ f.year ++ f.month ++ f.dom ++ f.wday ++ f.hour ++ f.min ++ f.sec) = c ∧
      FieldBytes.ofPayload (c ++ f.year ++ f.month ++ f.dom ++ f.wday ++ f.hour ++ f.min ++ f.sec) = f := by
  obtain ⟨sec, min, hour, wday, dom, month, year⟩ := f
  refine ⟨?_, ?_⟩
  on_goal 2 =>
    simp only [FieldBytes.ofPayload, FieldBytes.mk.injEq]
    refine ⟨?_, ?_, ?_, ?_, ?_, ?_, ?_⟩
  all_goals
    apply BitVec.eq_of_getLsbD_eq
    intro i hi
    simp only [extraByteOfPayload, BitVec.getLsbD_extractLsb', BitVec.getLsbD_append]
    interval_cases i <;> simp

/-- WRNOW's steps are WRCOMP's of the host's time (R155). -/
theorem exec_wrnow_delegates {s : State} {c : Byte} {f : FieldBytes}
    (h : s.hostTime = c ++ f.year ++ f.month ++ f.dom ++ f.wday ++ f.hour ++ f.min ++ f.sec) :
    OutcomesRelated (NameApart .wrnow) (exec (.wrcomp c f) s) (exec .wrnow s) := by
  obtain ⟨hc, hf⟩ := formatF_payload_parts c f
  refine exec_delegates rfl rfl ?_ fun _ => rfl
  simp only [planOf, h, hc, hf]

end Sys2Proof.Machine
end

section
/-! # Late answers (R31, R60, R73)

Answers and settle times that come later stand behind those that were there. A run that ends in a response has not
looked at them; a run that waits has used up what was there, and goes on at the step it waits for. -/

namespace Sys2Proof.Machine

variable {i : Instr} {todo : List MicroOp} {issued : Bool} {got : List Byte} {s t : State}
  (as : List TransportResponse) (es : List Nat)

theorem withMore_waitAt (o : Operation) (s : State) : (waitAt o s).withMore as es = waitAt o (s.withMore as es) := rfl

theorem withMore_outgoing (r : Request) (issued : Bool) (s : State) :
    (outgoing r issued s).withMore as es = outgoing r issued (s.withMore as es) := by
  cases issued <;> rfl

theorem request_withMore (m : MicroOp) (s : State) : m.request (s.withMore as es) = m.request s := by
  cases m <;> rfl

/-- Starting the settle timer again while it runs changes nothing. -/
theorem runSteps_settle_again (rest : List MicroOp) (issued : Bool) :
    runSteps i (.waitSettle :: rest) true got (startSettle s) = runSteps i (.waitSettle :: rest) issued got s := rfl

/-- What a run with more answers and settle times does, given what it did without them: the same, where it answered; and
where it waits for a step, what going on from there does. -/
def GoesOnWithMore (run runMore : Host.Outcome State Fault Refusal) : Prop :=
  ∀ t, run = .next t →
    (t.seq = .idle → runMore = .next (t.withMore as es)) ∧
    (∀ o, t.seq = .busy o → runMore = runSteps o.instr o.todo true o.got (t.withMore as es))

theorem GoesOnWithMore.answered (r : Response) (s : State) :
    GoesOnWithMore as es (.next (respond r s)) (.next (respond r (s.withMore as es))) := by
  rintro t ⟨⟩
  exact ⟨fun _ => rfl, nofun⟩

theorem GoesOnWithMore.waiting {runMore : Host.Outcome State Fault Refusal} {o : Operation} {s : State}
    (h : runMore = runSteps o.instr o.todo true o.got (s.withMore as es)) :
    GoesOnWithMore as es (.next (waitAt o s)) runMore := by
  rintro t ⟨⟩
  refine ⟨nofun, ?_⟩
  rintro o' ⟨⟩
  rw [withMore_waitAt, runSteps_waitAt, h]

/-- By induction on the steps: each step that ended ends in the same way with more to come behind. -/
theorem runSteps_withMore (i : Instr) (todo : List MicroOp) (issued : Bool) (got : List Byte) (s : State) :
    GoesOnWithMore as es (runSteps i todo issued got s) (runSteps i todo issued got (s.withMore as es)) := by
  induction todo generalizing issued got s with
  | nil => exact .answered as es _ s
  | cons m rest ih =>
    have hreq := request_withMore as es m s
    rcases performStep_cases m issued s with ⟨e, hc, hp⟩ | ⟨rfl, ho, he, hp⟩ | ⟨e, xs, rfl, ho, he, hp⟩ |
      ⟨x, hc, hx, hp⟩ | ⟨r, hc, hm, hr, ha, hp⟩ | ⟨r, a, xs, hc, hm, hr, ha, hp⟩
    · rw [runSteps_failed hp, runSteps_failed (performStep_check hc issued _)]
      exact .answered as es _ s
    · rw [runSteps_waiting hp]
      exact .waiting as es (runSteps_settle_again rest issued).symm
    · have hmore := performStep_settled (s := s.withMore as es) ho (congrArg (· ++ es) he) issued
      rw [runSteps_done hp, runSteps_done hmore]
      exact ih false (got ++ []) _
    · rw [runSteps_refused hp]
      intro t ht
      cases ht
    · rw [runSteps_waiting hp]
      refine .waiting as es ?_
      rw [withMore_outgoing]
      exact (runSteps_outgoing (s := s.withMore as es) hr hc (hreq.trans hm)).symm
    · have hmore : (s.withMore as es).answers = a :: (xs ++ as) := congrArg (· ++ as) ha
      have htake : takeAnswer r a (xs ++ as) (outgoing r issued (s.withMore as es)) =
          (takeAnswer r a xs (outgoing r issued s)).withMore as es := by
        rw [← withMore_outgoing]
        rfl
      rcases hp with ⟨out, hok, hd, hp⟩ | ⟨e, hok, hd, hp⟩ | ⟨hok, hp⟩
      · have hmored := performStep_done (s := s.withMore as es) hr hc (hreq.trans hm) hmore hok hd issued
        rw [runSteps_done hp, runSteps_done hmored, htake]
        exact ih false (got ++ out) _
      · have hmored := performStep_undecoded (s := s.withMore as es) hr hc (hreq.trans hm) hmore hok hd issued
        rw [runSteps_failed hp, runSteps_failed hmored, htake]
        exact .answered as es _ _
      · have hmored := performStep_failed (s := s.withMore as es) hr hc (hreq.trans hm) hmore hok issued
        rw [runSteps_failed hp, runSteps_failed hmored, htake]
        exact .answered as es _ _

theorem exec_withMore (i : Instr) (s : State) :
    GoesOnWithMore as es (exec i s) (exec i (s.withMore as es)) := by
  cases hi : isCodec i with
  | true =>
    obtain ⟨r, n, h⟩ := exec_codec hi s.freeDraws
    rw [h s rfl, h (s.withMore as es) rfl]
    exact .answered as es r { s with freeDraws := n }
  | false =>
    rw [exec_eq_runSteps hi, exec_eq_runSteps hi]
    exact runSteps_withMore as es i _ false [] s

/-- Settles O43: going on with a waiting operation is a step of the `BUSY` block. -/
theorem lateAnswersResumeTheSameOperation : Obligations.LateAnswersResumeTheSameOperation := by
  intro i s t as es h
  obtain ⟨hidle, hbusy⟩ := exec_withMore as es i s t h
  refine ⟨hidle, fun o ho h0 => ?_⟩
  rw [hbusy o ho, step_busy (s := t.withMore as es) h0 ho]

end Sys2Proof.Machine
end

section
/-! # What a run keeps and what it answers, by its step sequence (R31 to R38, R103, R149, R210 to R214)

The requests of a run are those of its steps, and the timer is used by the settle wait alone. So a relation of states that
composes, and that the updates made by the steps of one sequence have, holds of every run of that sequence. What a run
answers is the operation's result or an error one of its steps raises. -/

namespace Sys2Proof.Machine

variable {i : Instr} {todo : List MicroOp} {issued : Bool} {got : List Byte} {s t : State} {r : Response}

/-! ## Frames -/

/-- The updates the step `m` makes all have `P`. -/
structure MicroOp.Keeps (P : State → State → Prop) (m : MicroOp) : Prop where
  send : ∀ s q, m.request s = some q → P s (sendRequest q s)
  take : ∀ s q a rest, m.request s = some q → P s (takeAnswer q a rest s)
  settle : m = .waitSettle → ∀ s, P s (startSettle s) ∧ ∀ e es, P s (elapseSettle e es s)

/-- A relation that composes, and that the updates ending a run have, holds of a run whose steps keep it. -/
theorem runSteps_keeps {P : State → State → Prop} (refl : ∀ s, P s s) (trans : ∀ a b c, P a b → P b c → P a c)
    (wait : ∀ o s, P s (waitAt o s)) (resp : ∀ r s, P s (respond r s)) (keep : ∀ m ∈ todo, m.Keeps P)
    (h : runSteps i todo issued got s = .next t) : P s t := by
  induction todo generalizing issued got s with
  | nil => cases h; exact resp _ _
  | cons m rest ih =>
    obtain ⟨hm, hrest⟩ := List.forall_mem_cons.1 keep
    have hout (q : Request) (hq : m.request s = some q) : P s (outgoing q issued s) := by
      cases issued with
      | true => exact refl s
      | false => exact hm.send s q hq
    rcases performStep_cases m issued s with ⟨e, -, hp⟩ | ⟨hw, -, -, hp⟩ | ⟨e, es, hw, -, -, hp⟩ | ⟨x, -, -, hp⟩ |
      ⟨q, -, hq, -, -, hp⟩ | ⟨q, a, as, -, hq, -, -, hp⟩
    · rw [runSteps_failed hp] at h; cases h; exact resp _ _
    · rw [runSteps_waiting hp] at h; cases h; exact trans _ _ _ (hm.settle hw s).1 (wait _ _)
    · rw [runSteps_done hp] at h
      exact trans _ _ _ (trans _ _ _ (hm.settle hw s).1 ((hm.settle hw _).2 e es)) (ih hrest h)
    · rw [runSteps_refused hp] at h; cases h
    · rw [runSteps_waiting hp] at h; cases h; exact trans _ _ _ (hout q hq) (wait _ _)
    · have htake : P s (takeAnswer q a as (outgoing q issued s)) := by
        have hq' : m.request (outgoing q issued s) = some q := by rw [← hq]; cases issued <;> cases m <;> rfl
        exact trans _ _ _ (hout q hq) (hm.take _ q a as hq')
      rcases hp with ⟨out, -, -, hp⟩ | ⟨e, -, -, hp⟩ | ⟨-, hp⟩
      · rw [runSteps_done hp] at h; exact trans _ _ _ htake (ih hrest h)
      · rw [runSteps_failed hp] at h; cases h; exact trans _ _ _ htake (resp _ _)
      · rw [runSteps_failed hp] at h; cases h; exact trans _ _ _ htake (resp _ _)

/-- The case of a part of the state that stays as it is. -/
theorem runSteps_keeps_part {α : Type} (f : State → α) (keep : ∀ m ∈ todo, m.Keeps fun s t => f t = f s)
    (h : runSteps i todo issued got s = .next t) (wait : ∀ o s, f (waitAt o s) = f s := by intros; rfl)
    (resp : ∀ r s, f (respond r s) = f s := by intros; rfl) : f t = f s :=
  runSteps_keeps (P := fun s t => f t = f s) (fun _ => rfl) (fun _ _ _ hab hbc => hbc.trans hab) wait resp keep h

/-! ## The steps of each sequence -/

theorem mem_readPlan {m : MicroOp} (h : m ∈ readPlan) : ∃ k, m = .readField k := by
  obtain ⟨k, -, rfl⟩ := List.mem_map.1 h
  exact ⟨k, rfl⟩

theorem mem_writePlan {x : Byte} {f : FieldBytes} {m : MicroOp} (h : m ∈ writePlan x f) :
    ∃ k, presentIn x k = true ∧ m = .writeField k (f.get k) := by
  obtain ⟨k, hk, rfl⟩ := List.mem_map.1 h
  exact ⟨k, (List.mem_filter.1 hk).2, rfl⟩

/-- The three operations that write time fields run a write plan. -/
theorem planOf_of_writes (hi : (∃ x f, i = .wrall x f) ∨ (∃ c f, i = .wrcomp c f) ∨ i = .wrnow) (v : BitVec 64) :
    isCodec i = false ∧ ∃ x f, planOf v i = writePlan x f := by
  rcases hi with ⟨x, f, rfl⟩ | ⟨c, f, rfl⟩ | rfl <;> exact ⟨rfl, _, _, rfl⟩

theorem mwrb_of_waitSettle {v : BitVec 64} (h : .waitSettle ∈ planOf v i) : ∃ a b, i = .mwrb a b := by
  cases i with
  | mwrb a b => exact ⟨a, b, rfl⟩
  | rdall c => cases (mem_readPlan h).choose_spec
  | wrall x f => cases (mem_writePlan h).choose_spec.2
  | wrcomp c f => cases (mem_writePlan h).choose_spec.2
  | wrnow => cases (mem_writePlan h).choose_spec.2
  | _ => simp [planOf] at h

/-! ## Frames of the operations -/

/-- Settles O41: the configuration is kept along with the legality of requests, which O40 rests on. -/
theorem configurationIsImmutable : Obligations.ConfigurationIsImmutable := fun _ _ h0 h => (step_sendsLegally h0 h).1

/-- Settles O7: no update of a run touches what the host presents. -/
theorem presentedCommandWaitsWhileBusy : Obligations.PresentedCommandWaitsWhileBusy := by
  intro s t o h0 hs h
  rw [step_busy h0 hs] at h
  exact runSteps_relates (P := fun s t => t.hostQueue = s.hostQueue) (fun _ => rfl)
    (fun _ _ _ hab hbc => hbc.trans hab) (fun _ _ _ _ _ => rfl) (fun _ _ _ _ _ => rfl) (fun _ => rfl)
    (fun _ _ _ _ => rfl) (fun _ _ => rfl) (fun _ _ => rfl) h

/-- A register read changes neither chip. -/
theorem keeps_chips_of_read {m : MicroOp} (h : (∃ k, m = .readField k) ∨ m = .readTempWhole ∨ m = .readTempFrac) :
    m.Keeps fun s t => t.chips = s.chips := by
  rcases h with ⟨k, rfl⟩ | rfl | rfl <;>
    exact ⟨fun _ _ _ => rfl, by rintro s _ a rest ⟨⟩; rfl, nofun⟩

/-- Settles O38: the codec makes no request, and the others make register reads alone. -/
theorem codecAndReadsChangeNoChip : Obligations.CodecAndReadsChangeNoChip := by
  intro i s t hi h
  cases hc : isCodec i with
  | true =>
    obtain ⟨r, n, rfl⟩ := eq_of_exec_codec hc h
    rfl
  | false =>
    rw [exec_eq_runSteps hc] at h
    refine runSteps_keeps_part State.chips (keep := fun m hm => keeps_chips_of_read ?_) h
    rcases hi with ⟨b, rfl⟩ | ⟨v, rfl⟩ | ⟨c, rfl⟩ | rfl
    · cases hc
    · cases hc
    · exact .inl (mem_readPlan hm)
    · exact .inr (by simpa [planOf] using hm)

/-- Settles O39: the settle wait alone uses the timer, and it is a step of MWRB alone. -/
theorem onlyMwrbUsesTheSettleTimer : Obligations.OnlyMwrbUsesTheSettleTimer := by
  intro i s t hi h
  have hparts : (t.settle, t.settleExtras, t.elapsedMs) = (s.settle, s.settleExtras, s.elapsedMs) := by
    cases hc : isCodec i with
    | true =>
      obtain ⟨r, n, rfl⟩ := eq_of_exec_codec hc h
      rfl
    | false =>
      rw [exec_eq_runSteps hc] at h
      refine runSteps_keeps_part (fun s : State => (s.settle, s.settleExtras, s.elapsedMs)) (keep := fun m hm => ?_) h
      refine ⟨fun _ _ _ => rfl, fun _ _ _ _ _ => rfl, ?_⟩
      rintro rfl
      obtain ⟨a, b, hab⟩ := mwrb_of_waitSettle hm
      exact absurd hab (hi a b)
  simpa using hparts

/-- Settles O56: a register write of the clock touches the clock registers alone. -/
theorem clockWritesLeaveTheMemoryDevice : Obligations.ClockWritesLeaveTheMemoryDevice := by
  intro i s t hi h
  obtain ⟨hc, x, f, hplan⟩ := planOf_of_writes hi s.hostTime
  rw [exec_eq_runSteps hc, hplan] at h
  have hparts := runSteps_keeps_part (fun s : State => (s.chips.mem, s.chips.ptr, s.chips.writeCycle))
    (keep := fun m hm => by
      obtain ⟨k, -, rfl⟩ := mem_writePlan hm
      exact ⟨fun _ _ _ => rfl, by rintro s _ a rest ⟨⟩; rfl, nofun⟩) h
  simpa using hparts

/-! ## Answers -/

/-- Settles O6: the codec answers at once; a run of steps ends as `runSteps_ends` says. -/
theorem oneResponsePerAcceptedCommand : Obligations.OneResponsePerAcceptedCommand := by
  have hrun {i : Instr} {todo : List MicroOp} {issued : Bool} {got : List Byte} {s t : State}
      (h : runSteps i todo issued got s = .next t) :
      (t.seq = .idle ∧ ∃ r, t.responses = s.responses ++ [r]) ∨
        (∃ o, t.seq = .busy o ∧ o.instr = i ∧ t.responses = s.responses) :=
    (runSteps_ends h).imp_right fun ⟨o, hseq, hinstr, _, _, hresp⟩ => ⟨o, hseq, hinstr, hresp⟩
  refine ⟨fun i s t h => ?_, fun s t o h0 hs h => ?_⟩
  · cases hc : isCodec i with
    | true =>
      obtain ⟨r, n, rfl⟩ := eq_of_exec_codec hc h
      exact .inl ⟨rfl, r, rfl⟩
    | false =>
      rw [exec_eq_runSteps hc] at h
      exact hrun h
  · rw [step_busy h0 hs] at h
    exact hrun h

/-- The errors a step can meet: its check's, that of a delivered byte, or a transport failure (R215). -/
def MicroOp.Raises (m : MicroOp) (e : OpError) : Prop :=
  m.check = some e ∨ (∃ d, m.receive d = .error e) ∨ ∃ c, e = .transport c m.errorField

/-- The same by error class: a field write's range, a field read's bad byte, or the transport's cause. -/
theorem MicroOp.Raises.cases {m : MicroOp} {e : OpError} (h : m.Raises e) :
    (∃ k v, m = .writeField k v ∧ e = .range k) ∨ (∃ k, m = .readField k ∧ e = .undefinedDecode (some k)) ∨
      ∃ c, e = .transport c m.errorField := by
  rcases h with hc | ⟨d, hd⟩ | ht
  · obtain ⟨k, v, hm, he, -⟩ := check_eq_some hc
    exact .inl ⟨k, v, hm, he⟩
  · refine .inr (.inl ?_)
    cases m with
    | readField k =>
      simp only [MicroOp.receive] at hd
      split at hd
      · cases hd
      · cases hd; exact ⟨k, rfl, rfl⟩
    | _ => cases hd
  · exact .inr (.inr ht)

/-- The response `r` is the result of the operation `i`, or an error of one of the steps `todo`. -/
def AnswerOf (i : Instr) (todo : List MicroOp) (r : Response) : Prop :=
  (∃ got, r = okResponse (operationResult i got)) ∨ ∃ m ∈ todo, ∃ e, m.Raises e ∧ r = errorResponse e

theorem AnswerOf.cons {m : MicroOp} (h : AnswerOf i todo r) : AnswerOf i (m :: todo) r :=
  h.imp_right fun ⟨m', hm', he⟩ => ⟨m', List.mem_cons_of_mem _ hm', he⟩

theorem AnswerOf.head {m : MicroOp} {e : OpError} (h : m.Raises e) : AnswerOf i (m :: todo) (errorResponse e) :=
  .inr ⟨m, List.mem_cons_self, e, h, rfl⟩

theorem runSteps_answer (h : runSteps i todo issued got s = .next t) (hr : t.responses = s.responses ++ [r]) :
    AnswerOf i todo r := by
  induction todo generalizing issued got s with
  | nil =>
    cases h
    cases eq_of_respond hr
    exact .inl ⟨got, rfl⟩
  | cons m rest ih =>
    rcases performStep_cases m issued s with ⟨e, hc, hp⟩ | ⟨-, -, -, hp⟩ | ⟨e, es, -, -, -, hp⟩ | ⟨x, -, -, hp⟩ |
      ⟨q, -, -, -, -, hp⟩ | ⟨q, a, as, -, -, -, -, ⟨out, -, -, hp⟩ | ⟨e, -, hd, hp⟩ | ⟨-, hp⟩⟩
    · rw [runSteps_failed hp] at h
      cases h
      cases eq_of_respond hr
      exact .head (.inl hc)
    · rw [runSteps_waiting hp] at h
      cases h
      simp at hr
    · rw [runSteps_done hp] at h
      exact (ih h hr).cons
    · rw [runSteps_refused hp] at h
      cases h
    · rw [runSteps_waiting hp] at h
      cases h
      simp at hr
    · rw [runSteps_done hp] at h
      exact (ih h (by simpa using hr)).cons
    · rw [runSteps_failed hp] at h
      cases h
      cases eq_of_respond hr (by simp)
      exact .head (.inr (.inl ⟨_, hd⟩))
    · rw [runSteps_failed hp] at h
      cases h
      cases eq_of_respond hr (by simp)
      exact .head (.inr (.inr ⟨_, rfl⟩))

/-- What an operation answers: a result, an error of one of its steps, or the codec's rejection of a bad nibble. -/
theorem exec_answer (h : exec i s = .next t) (hr : t.responses = s.responses ++ [r]) :
    (∃ res, r = okResponse res) ∨ (∃ m ∈ planOf s.hostTime i, ∃ e, m.Raises e ∧ r = errorResponse e) ∨
      (∃ b, i = .bcddec b) ∧ r = errorResponse (.undefinedDecode none) := by
  cases hc : isCodec i with
  | true =>
    cases i with
    | bcddec b =>
      by_cases hb : bcdValid b = true
      · rw [exec_bcddec_valid hb] at h
        cases h
        cases eq_of_respond hr
        exact .inl ⟨_, rfl⟩
      · rw [exec_bcddec_invalid hb] at h
        cases h
        cases eq_of_respond hr
        exact .inr (.inr ⟨⟨b, rfl⟩, rfl⟩)
    | bcdenc v =>
      by_cases hv : v.toNat ≤ 99
      · rw [exec_bcdenc_le hv] at h
        cases h
        cases eq_of_respond hr
        exact .inl ⟨_, rfl⟩
      · rw [exec_bcdenc_gt (Nat.lt_of_not_le hv)] at h
        cases h
        cases eq_of_respond hr
        exact .inl ⟨_, rfl⟩
    | _ => cases hc
  | false =>
    rw [exec_eq_runSteps hc] at h
    rcases runSteps_answer h hr with ⟨got, hok⟩ | herr
    · exact .inl ⟨_, hok⟩
    · exact .inr (.inl herr)

theorem consistent_okResponse (res : Result) : (okResponse res).consistent := by
  simp [Response.consistent, okResponse]

theorem consistent_errorResponse (e : OpError) : (errorResponse e).consistent := by
  cases e <;> simp [Response.consistent, errorResponse]

/-- From `s` to `t` at most one response was issued, and its members agree with its status. -/
def AnswersConsistently (s t : State) : Prop :=
  t.responses = s.responses ∨ ∃ r, t.responses = s.responses ++ [r] ∧ r.consistent

theorem runSteps_answersConsistently (h : runSteps i todo issued got s = .next t) : AnswersConsistently s t := by
  rcases runSteps_ends h with ⟨-, r, hr⟩ | ⟨o, -, -, -, -, hr⟩
  · refine .inr ⟨r, hr, ?_⟩
    rcases runSteps_answer h hr with ⟨got, rfl⟩ | ⟨m, -, e, -, rfl⟩
    · exact consistent_okResponse _
    · exact consistent_errorResponse e
  · exact .inl hr

theorem exec_answersConsistently (h : exec i s = .next t) : AnswersConsistently s t := by
  rcases oneResponsePerAcceptedCommand.1 i s t h with ⟨-, r, hr⟩ | ⟨o, -, -, hr⟩
  · refine .inr ⟨r, hr, ?_⟩
    rcases exec_answer h hr with ⟨res, rfl⟩ | ⟨m, -, e, -, rfl⟩ | ⟨-, rfl⟩
    · exact consistent_okResponse res
    · exact consistent_errorResponse e
    · exact consistent_errorResponse _
  · exact .inl hr

/-- Settles O8: every response of a step is one of an operation, or the error of an illegal word. -/
theorem responseMembersAgreeWithStatus : Obligations.ResponseMembersAgreeWithStatus := by
  intro s t h
  cases h0 : s.rst with
  | some p =>
    rw [step_reset h0] at h
    cases h
    exact .inl rfl
  | none =>
    rcases step_cases h0 h with ⟨o, -, hrun⟩ |
      ⟨-, ⟨-, rfl⟩ | ⟨i, rest, hexec⟩ | ⟨rest, rfl⟩ | ⟨rest, v, rfl⟩ | ⟨rest, e, -, rfl⟩⟩
    · exact runSteps_answersConsistently hrun
    · exact .inl rfl
    · exact exec_answersConsistently (s := { s with hostQueue := rest }) hexec
    · exact .inr ⟨_, rfl, consistent_errorResponse .illegal⟩
    · exact .inl rfl
    · exact .inl rfl

/-! ## Error classes -/

theorem rdall_of_readField {v : BitVec 64} {k : TimeField} (h : .readField k ∈ planOf v i) : ∃ c, i = .rdall c := by
  cases i with
  | rdall c => exact ⟨c, rfl⟩
  | wrall x f => cases (mem_writePlan h).choose_spec.2
  | wrcomp c f => cases (mem_writePlan h).choose_spec.2
  | wrnow => cases (mem_writePlan h).choose_spec.2
  | _ => simp [planOf] at h

/-- The operations on time fields are those whose steps have a field to scope a failure to (R212). -/
theorem errorField_of_mem_planOf {v : BitVec 64} {m : MicroOp} (h : m ∈ planOf v i) :
    ((∃ c, i = .rdall c) ∨ (∃ x f, i = .wrall x f) ∨ (∃ c f, i = .wrcomp c f) ∨ i = .wrnow) ∧
        m.errorField.isSome = true ∨
      (i = .rdtemp ∨ (∃ a, i = .setaddr a) ∨ (∃ a, i = .mrdb a) ∨ (∃ a v, i = .mwrb a v)) ∧ m.errorField = none := by
  cases i with
  | bcddec b => cases h
  | bcdenc v => cases h
  | rdall c =>
    obtain ⟨k, rfl⟩ := mem_readPlan h
    exact .inl ⟨.inl ⟨c, rfl⟩, rfl⟩
  | wrall x f =>
    obtain ⟨k, -, rfl⟩ := mem_writePlan h
    exact .inl ⟨.inr (.inl ⟨x, f, rfl⟩), rfl⟩
  | wrcomp c f =>
    obtain ⟨k, -, rfl⟩ := mem_writePlan h
    exact .inl ⟨.inr (.inr (.inl ⟨c, f, rfl⟩)), rfl⟩
  | wrnow =>
    obtain ⟨k, -, rfl⟩ := mem_writePlan h
    exact .inl ⟨.inr (.inr (.inr rfl)), rfl⟩
  | rdtemp =>
    obtain rfl | rfl : m = .readTempWhole ∨ m = .readTempFrac := by simpa [planOf] using h
    all_goals exact .inr ⟨.inl rfl, rfl⟩
  | setaddr a =>
    obtain rfl : m = .sendPointer a := by simpa [planOf] using h
    exact .inr ⟨.inr (.inl ⟨a, rfl⟩), rfl⟩
  | mrdb a =>
    obtain rfl | rfl : m = .sendPointer a ∨ m = .readRaw := by simpa [planOf] using h
    all_goals exact .inr ⟨.inr (.inr (.inl ⟨a, rfl⟩)), rfl⟩
  | mwrb a b =>
    obtain rfl | rfl : m = .sendData a b ∨ m = .waitSettle := by simpa [planOf] using h
    all_goals exact .inr ⟨.inr (.inr (.inr ⟨a, b, rfl⟩)), rfl⟩

/-- Settles O55: `RangeError` by O54; the others by the steps that raise them and the sequences these stand in. -/
theorem errorClassesComeOnlyFromTheirOperations : Obligations.ErrorClassesComeOnlyFromTheirOperations := by
  intro i s t r h hr
  refine ⟨fun hst => ?_, ?_⟩
  · obtain ⟨k, v, new, -, -, ⟨x, f, hi, -⟩ | ⟨c, f, hi, -⟩ | ⟨hi, -⟩, -⟩ :=
      rangeErrorNamesAFieldOutOfRange i s t r h hr hst
    · exact .inl ⟨x, f, hi⟩
    · exact .inr (.inl ⟨c, f, hi⟩)
    · exact .inr (.inr hi)
  · rcases exec_answer h hr with ⟨res, rfl⟩ | ⟨m, hm, e, he, rfl⟩ | ⟨hi, rfl⟩
    · exact ⟨nofun, nofun, nofun⟩
    · rcases he.cases with ⟨k, v, rfl, rfl⟩ | ⟨k, rfl, rfl⟩ | ⟨c, rfl⟩
      · exact ⟨nofun, nofun, nofun⟩
      · exact ⟨nofun, fun _ => .inr ⟨rdall_of_readField hm, rfl⟩, nofun⟩
      · exact ⟨fun _ => errorField_of_mem_planOf hm, nofun, nofun⟩
    · exact ⟨nofun, fun _ => .inl ⟨hi, rfl⟩, nofun⟩

end Sys2Proof.Machine
end

section
/-! # The clock's operations with their answers there (R140 to R161)

Each operation is its step sequence; a run of reads or writes that succeed is one equation (`runSteps_reads`,
`runSteps_writes`), after which the run ends: with the result, or at the next step, which fails. -/

namespace Sys2Proof.Machine

variable {s : State} {f : FieldBytes} {a : TimeField → TransportResponse} {rest : List TransportResponse}

/-! ## One step with its answer there -/

section
variable {i : Instr} {m : MicroOp} {todo : List MicroOp} {got out : List Byte} {q : Request} {p : TransportResponse}

/-- A step that succeeds: the operation goes on. -/
theorem runSteps_succeeds (hr : s.transportReady) (hc : m.check = none) (hm : m.request s = some q)
    (ha : s.answers = p :: rest) (hok : p.ok = true) (hd : m.receive p.data = .ok out) :
    runSteps i (m :: todo) false got s = runSteps i todo false (got ++ out) (takeAnswer q p rest (sendRequest q s)) :=
  runSteps_done (performStep_done hr hc hm ha hok hd false)

/-- A step whose request fails: the operation ends with the transport's cause (R212). -/
theorem runSteps_fails (hr : s.transportReady) (hc : m.check = none) (hm : m.request s = some q)
    (ha : s.answers = p :: rest) (hok : p.ok = false) :
    runSteps i (m :: todo) false got s =
      .next (raiseError (.transport p.cause m.errorField) (takeAnswer q p rest (sendRequest q s))) :=
  runSteps_failed (performStep_failed hr hc hm ha hok false)

/-- A step whose byte does not decode: the operation ends with the decode error (R213). -/
theorem runSteps_rejects {e : OpError} (hr : s.transportReady) (hc : m.check = none) (hm : m.request s = some q)
    (ha : s.answers = p :: rest) (hok : p.ok = true) (hd : m.receive p.data = .error e) :
    runSteps i (m :: todo) false got s = .next (raiseError e (takeAnswer q p rest (sendRequest q s))) :=
  runSteps_failed (performStep_undecoded hr hc hm ha hok hd false)

end

/-! ## One field write -/

/-- Settles O15: the check, then the one request, which only the clock register it names knows of. -/
theorem fieldWriteChecksThenWritesOnce : Obligations.FieldWriteChecksThenWritesOnce := by
  refine ⟨fun v => ?_, fun k v s h => ?_, fun k v s a rest h hr ha => ?_⟩
  · simp [fieldInRange_iff, fieldLo, fieldHi]
  · exact performStep_check (by simp [MicroOp.check, h]) false s
  · have hc : (MicroOp.writeField k v).check = none := by simp [MicroOp.check, h]
    cases hok : a.ok with
    | true => simp [performStep_done hr hc rfl ha hok rfl, takeAnswer, sendRequest, Chips.after, hok]
    | false => simp [performStep_failed hr hc rfl ha hok, takeAnswer, sendRequest, Chips.after, hok, MicroOp.errorField]

/-! ## RDALL -/

/-- Settles O16: seven reads that succeed, and the result made of the seven values. -/
theorem rdallAnswersTheDecodedFields : Obligations.RdallAnswersTheDecodedFields := by
  intro s c a v rest hr hok hd ha
  have hrun := runSteps_reads (i := .rdall c) (tail := []) readOrder [] s hr (fun k _ => ⟨hok k, hd k⟩) ha
  rw [List.append_nil, runSteps_nil] at hrun
  exact hrun

/-- Settles O17: the reads before the bad field succeed, and the read of that field ends the operation. -/
theorem rdallStopsAtTheFirstBadField : Obligations.RdallStopsAtTheFirstBadField := by
  intro s c pre post k a x rest hr hsplit hpre ha
  have hrun := runSteps_reads (i := .rdall c) (v := fun j => (fieldDecode j (a j).data).getD 0)
    (tail := .readField k :: post.map .readField) pre [] s hr
    (fun j hj => ⟨(hpre j hj).1, by obtain ⟨v, hv⟩ := Option.isSome_iff_exists.1 (hpre j hj).2; simp [hv]⟩) ha
  have hexec : exec (.rdall c) s =
      runSteps (.rdall c) (pre.map .readField ++ .readField k :: post.map .readField) false [] s := by
    rw [exec_eq_runSteps rfl, ← List.map_cons, ← List.map_append, ← hsplit]
    rfl
  rw [hexec, hrun]
  refine ⟨fun hok => ?_, fun hok hd => ?_⟩
  · refine Eq.trans (runSteps_fails hr rfl rfl rfl hok) ?_
    simp [raiseError, respond, errorResponse, takeAnswer, sendRequest, Chips.after, fieldReadRequest, MicroOp.errorField]
  · have hrecv : (MicroOp.readField k).receive x.data = .error (.undefinedDecode (some k)) := by
      simp [MicroOp.receive, hd]
    refine Eq.trans (runSteps_rejects hr rfl rfl rfl hok hrecv) ?_
    simp [raiseError, respond, errorResponse, takeAnswer, sendRequest, Chips.after, fieldReadRequest]

/-! ## Writes -/

/-- The state after the fields `ks` have been written successfully, `rest` being the answers still to come. -/
def afterWrites (s : State) (f : FieldBytes) (ks : List TimeField) (rest : List TransportResponse) : State :=
  { s with
    answers := rest
    requests := s.requests ++ ks.map (fieldWriteRequest s f)
    chips := { s.chips with clock := clockAfterWrites s f ks } }

/-- A write sequence whose writes all succeed. -/
theorem runSteps_all_writes {i : Instr} (ks : List TimeField) (hr : s.transportReady)
    (hk : ∀ k ∈ ks, fieldLo k ≤ (f.get k).toNat ∧ (f.get k).toNat ≤ fieldHi k ∧ (a k).ok = true)
    (ha : s.answers = ks.map a ++ rest) (hres : operationResult i [] = .empty) :
    runSteps i (ks.map fun k => .writeField k (f.get k)) false [] s =
      .next (respond (okResponse .empty) (afterWrites s f ks rest)) := by
  have hrun := runSteps_writes (i := i) (tail := []) ks [] s hr hk ha
  rwa [List.append_nil, runSteps_nil, hres] at hrun

/-- Settles O19: WRALL's steps are the writes of the present fields. -/
theorem wrallWritesThePresentFields : Obligations.WrallWritesThePresentFields := by
  intro s x f a rest ks hr hks hk ha
  subst hks
  exact runSteps_all_writes _ hr hk ha rfl

/-- Settles O20: the writes before the field succeed; the field's check ends the operation, or the answer to its write. -/
theorem wrallErrorKeepsEarlierWrites : Obligations.WrallErrorKeepsEarlierWrites := by
  intro s x f a pre post k hr hsplit hpre
  have hexec : exec (.wrall x f) s = runSteps (.wrall x f) (pre.map (fun j => .writeField j (f.get j)) ++
      .writeField k (f.get k) :: post.map fun j => .writeField j (f.get j)) false [] s := by
    rw [exec_eq_runSteps rfl]
    refine congrArg (fun plan => runSteps _ plan false [] s) ?_
    rw [← List.map_cons (f := fun j => MicroOp.writeField j (f.get j)), ← List.map_append, ← hsplit]
    rfl
  refine ⟨fun rest hout ha => ?_, fun y rest hlo hhi hy ha => ?_⟩
  · rw [hexec, runSteps_writes pre [] s hr hpre ha, runSteps_failed (performStep_check (check_writeField_out hout) false _)]
    rfl
  · rw [hexec, runSteps_writes pre [] s hr hpre ha]
    refine Eq.trans (runSteps_fails hr (check_writeField ⟨hlo, hhi⟩) rfl rfl hy) ?_
    simp [raiseError, respond, errorResponse, takeAnswer, sendRequest, Chips.after, fieldWriteRequest, hy,
      MicroOp.errorField]

/-- The computed weekday is in range and the other fields are the composite's (R152, R153). -/
theorem compositeFields_inRange {c : Byte}
    (h : ∀ k, k ≠ .wday → fieldLo k ≤ (f.get k).toNat ∧ (f.get k).toNat ≤ fieldHi k) (k : TimeField) :
    fieldLo k ≤ ((compositeFields c f).get k).toNat ∧ ((compositeFields c f).get k).toNat ≤ fieldHi k := by
  by_cases hk : k = .wday
  · subst hk
    have h := compositeWeekday_inRange c f
    rwa [OutOfRange, not_or, Nat.not_lt, Nat.not_lt] at h
  · rw [compositeFields_get hk]
    exact h k hk

/-- A composite written whole, by either operation that writes one. -/
theorem runSteps_compositePlan {i : Instr} {c : Byte} (hr : s.transportReady)
    (h : ∀ k, k ≠ .wday → fieldLo k ≤ (f.get k).toNat ∧ (f.get k).toNat ≤ fieldHi k) (hok : ∀ k, (a k).ok = true)
    (ha : s.answers = writeOrder.map a ++ rest) (hres : operationResult i [] = .empty) :
    runSteps i (compositePlan c f) false [] s =
      .next (respond (okResponse .empty) (afterWrites s (compositeFields c f) writeOrder rest)) := by
  have hrange := compositeFields_inRange (c := c) h
  exact runSteps_all_writes writeOrder hr (fun k _ => ⟨(hrange k).1, (hrange k).2, hok k⟩) ha hres

/-- Settles O23, by the composite written whole. -/
theorem wrcompWritesAllSevenFields : Obligations.WrcompWritesAllSevenFields := by
  intro s c f g a rest hr hg h hok ha
  obtain rfl : g = compositeFields c f := hg
  exact runSteps_compositePlan hr h hok ha rfl

/-- Settles O25: WRNOW delegates to WRCOMP of the sampled time, and completes as it does. -/
theorem wrnowWritesTheSampledHostTime : Obligations.WrnowWritesTheSampledHostTime := by
  refine ⟨fun s c f h => ?_, fun s c f g a rest h hr hg hrange hok ha => ?_⟩
  · have hdel := exec_wrnow_delegates h
    refine ⟨fun t ht => ?_, fun r => (hdel.refused_iff r).symm⟩
    obtain ⟨u, hu, rfl⟩ := hdel.of_next ht
    exact hu
  · obtain ⟨u, hu, rfl⟩ := (exec_wrnow_delegates h).of_next (wrcompWritesAllSevenFields s c f g a rest hr hg hrange hok ha)
    exact hu

/-! ## What a completed WRALL leaves in the registers -/

/-- A register that none of the written fields has is read as before. -/
theorem read_clockAfterWrites_other {ks : List TimeField} {r : Nat} (h : ∀ k ∈ ks, r ≠ (s.offsets.get k).toNat) :
    Memory.read (clockAfterWrites s f ks) r = Memory.read s.chips.clock r := by
  induction ks using List.reverseRecOn with
  | nil => rfl
  | append_singleton ks k ih =>
    rw [clockAfterWrites, List.foldl_concat, Memory.read_write_other _ _ (h k (by simp))]
    exact ih fun j hj => h j (by simp [hj])

/-- A written field's register holds its BCD byte, the offsets being all different. -/
theorem read_clockAfterWrites_same (ho : legalOffsets s.offsets) {ks : List TimeField} {k : TimeField} (hk : k ∈ ks) :
    Memory.read (clockAfterWrites s f ks) (s.offsets.get k).toNat = some (bcdEncode (f.get k)) := by
  induction ks using List.reverseRecOn with
  | nil => cases hk
  | append_singleton ks j ih =>
    rw [clockAfterWrites, List.foldl_concat]
    by_cases hjk : k = j
    · subst hjk
      exact Memory.read_write_same _ _ _
    · have hoff : (s.offsets.get k).toNat ≠ (s.offsets.get j).toNat := fun he => hjk (ho.2 k j (BitVec.eq_of_toNat_eq he))
      rw [Memory.read_write_other _ _ hoff]
      exact ih (by simpa [hjk] using hk)

/-- A write sequence that answers `OK` has written every field. -/
theorem clock_of_ok {i : Instr} {ks : List TimeField} {issued : Bool} {got : List Byte} {s t : State} {res : Result}
    (h : runSteps i (ks.map fun k => .writeField k (f.get k)) issued got s = .next t)
    (hr : t.responses = s.responses ++ [okResponse res]) : t.chips.clock = clockAfterWrites s f ks := by
  induction ks generalizing issued got s with
  | nil => cases h; rfl
  | cons k ks ih =>
    rw [List.map_cons] at h
    rcases performStep_cases (.writeField k (f.get k)) issued s with ⟨e, hc, hp⟩ | ⟨hw, -⟩ | ⟨e, es, hw, -⟩ |
      ⟨x, -, -, hp⟩ | ⟨q, -, -, -, -, hp⟩ | ⟨q, a, as, -, hq, -, -, ⟨out, hok, -, hp⟩ | ⟨e, -, hd, hp⟩ | ⟨-, hp⟩⟩
    · rw [runSteps_failed hp] at h
      cases h
      obtain ⟨j, v, -, rfl, -⟩ := check_eq_some hc
      cases eq_of_respond hr
    · cases hw
    · cases hw
    · rw [runSteps_refused hp] at h
      cases h
    · rw [runSteps_waiting hp] at h
      cases h
      simp at hr
    · rw [runSteps_done hp] at h
      cases hq
      rw [ih h (by simpa using hr)]
      cases issued <;> simp [clockAfterWrites, takeAnswer, sendRequest, Chips.after, hok]
    · cases hd
    · rw [runSteps_failed hp] at h
      cases h
      cases eq_of_respond hr (by simp)

/-- From `s` to `t` the offsets stay and every register but those of the fields present in `x` is read as before. -/
def LeavesOthers (x : Byte) (s t : State) : Prop :=
  t.offsets = s.offsets ∧ ∀ r : Nat, (∀ k, presentIn x k = true → r ≠ (s.offsets.get k).toNat) →
    Memory.read t.chips.clock r = Memory.read s.chips.clock r

theorem LeavesOthers.trans {x : Byte} {s t u : State} (hst : LeavesOthers x s t) (htu : LeavesOthers x t u) :
    LeavesOthers x s u := by
  obtain ⟨ho, hread⟩ := hst
  obtain ⟨ho', hread'⟩ := htu
  exact ⟨ho'.trans ho, fun r hr => (hread' r (ho ▸ hr)).trans (hread r hr)⟩

theorem LeavesOthers.of_clock_eq {x : Byte} {s t : State} (ho : t.offsets = s.offsets := by rfl)
    (hc : t.chips.clock = s.chips.clock := by rfl) : LeavesOthers x s t := ⟨ho, fun r _ => by rw [hc]⟩

/-- A field write, successful or failed, touches its own register alone. -/
theorem writeField_keeps_leavesOthers {x : Byte} {k : TimeField} {v : Byte} (hk : presentIn x k = true) :
    (MicroOp.writeField k v).Keeps (LeavesOthers x) := by
  refine ⟨fun _ _ _ => .of_clock_eq, ?_, nofun⟩
  rintro s _ a rest ⟨⟩
  refine ⟨rfl, fun r hr => ?_⟩
  simp only [takeAnswer_chips, Chips.after]
  split
  · exact Memory.read_write_other _ _ (hr k hk)
  · exact Memory.read_forget_other _ (hr k hk)

/-- Settles O21: the frame of every write sequence, and what a completed one has written. -/
theorem wrallLeavesOtherRegistersUntouched : Obligations.WrallLeavesOtherRegistersUntouched := by
  intro s t x f ho h
  rw [exec_eq_runSteps rfl] at h
  refine ⟨(runSteps_keeps (P := LeavesOthers x) (fun _ => .of_clock_eq) (fun _ _ _ => .trans) (fun _ _ => .of_clock_eq)
    (fun _ _ => .of_clock_eq) (fun m hm => ?_) h).2, fun hr k hk => ?_⟩
  · obtain ⟨k, hk, rfl⟩ := mem_writePlan hm
    exact writeField_keeps_leavesOthers hk
  · rw [clock_of_ok h hr]
    refine read_clockAfterWrites_same ho (List.mem_filter.2 ⟨?_, hk⟩)
    cases k <;> decide

/-! ## RDTEMP -/

/-- Settles O27: two register reads; the first or the second may fail. -/
theorem rdtempAnswersQuarterDegrees : Obligations.RdtempAnswersQuarterDegrees := by
  intro s p hr
  have hexec : exec .rdtemp s = runSteps .rdtemp [.readTempWhole, .readTempFrac] false [] s := rfl
  refine ⟨fun q rest hp hq ha => ?_, fun rest hp ha => ?_, fun q rest hp hq ha => ?_⟩
  · rw [hexec, runSteps_succeeds hr rfl rfl ha hp rfl]
    refine Eq.trans (runSteps_succeeds hr rfl rfl rfl hq rfl) ?_
    have htemp : tempQ p.data q.data = BitVec.ofNat 10 (4 * p.data.toNat + q.data.toNat / 64) := by
      rw [← tempQ_toNat, BitVec.ofNat_toNat, BitVec.setWidth_eq]
    simp [respond, okResponse, operationResult, htemp, takeAnswer, sendRequest, Chips.after, tempWholeOffset,
      tempFracOffset]
  · rw [hexec, runSteps_fails hr rfl rfl ha hp]
    rfl
  · rw [hexec, runSteps_succeeds hr rfl rfl ha hp rfl]
    refine Eq.trans (runSteps_fails hr rfl rfl rfl hq) ?_
    simp [raiseError, respond, errorResponse, takeAnswer, sendRequest, Chips.after, MicroOp.errorField, tempWholeOffset,
      tempFracOffset]

end Sys2Proof.Machine
end

section
/-! # The Paged Memory Addressor (R192 to R198, R247 to R249)

What is known of the memory device after one of its requests is one equation each; the three operations are then two
steps at most. MWRB ends in four ways: it waits for its transfer, its transfer failed, it waits for the timer, or the
timer has elapsed. -/

namespace Sys2Proof.Machine

variable {i : Instr} {issued : Bool} {got : List Byte} {s t : State} {addr : LinearAddress} {v : Byte}

/-! ## The memory device's side of a request -/

/-- What a pointer write leaves known (R198, R247). -/
theorem chips_after_pointerRequest (c : Chips) (capacity : Nat) (ok : Bool) (s : State) (addr : LinearAddress) :
    c.after capacity ok (pointerRequest s addr) =
      { c with
        ptr := if ok && !c.writeCycle then some addr else none
        mem := if c.writeCycle then [] else c.mem } := by
  simp [pointerRequest, Chips.after]

/-- What a data write leaves known (R65, R68, R198, R247). -/
theorem chips_after_dataRequest (c : Chips) (capacity : Nat) (ok : Bool) (s : State) (addr : LinearAddress) (v : Byte) :
    c.after capacity ok (dataRequest s addr v) =
      { c with
        ptr := none
        writeCycle := true
        mem :=
          if c.writeCycle = true ∨ capacity ≤ addr.toNat then []
          else if ok then Memory.write c.mem addr.toNat v else Memory.forget c.mem addr.toNat } := by
  simp [dataRequest, Chips.after, Chips.memAfterWrite]

/-- After a raw read the pointer is unknown (R198). -/
theorem chips_after_rdraw (c : Chips) (capacity : Nat) (ok : Bool) (dev : Byte) :
    c.after capacity ok (.rdraw dev) = { c with ptr := none } := rfl

/-! ## SETADDR and MRDB -/

/-- Settles O31: one pointer write, after which the pointer is known when the write succeeded outside a write cycle. -/
theorem setaddrSendsThePointer : Obligations.SetaddrSendsThePointer := by
  intro s addr p rest hr ha
  have hexec : exec (.setaddr addr) s = runSteps (.setaddr addr) [.sendPointer addr] false [] s := rfl
  have hreq := request_sendPointer s addr
  refine ⟨fun hp hw => ?_, fun hp hw => ?_, fun hp => ?_⟩
  · rw [hexec, runSteps_succeeds hr rfl hreq ha hp rfl]
    simp [respond, okResponse, operationResult, takeAnswer, sendRequest, chips_after_pointerRequest, hp, hw]
  · rw [hexec, runSteps_succeeds hr rfl hreq ha hp rfl]
    simp [respond, okResponse, operationResult, takeAnswer, sendRequest, chips_after_pointerRequest, hw]
  · rw [hexec, runSteps_fails hr rfl hreq ha hp]
    simp [raiseError, respond, errorResponse, takeAnswer, sendRequest, chips_after_pointerRequest, hp,
      MicroOp.errorField]

/-- Settles O32: the pointer write, whose failure ends the operation, then the raw read. -/
theorem mrdbAnswersTheByteRead : Obligations.MrdbAnswersTheByteRead := by
  intro s addr p hr
  have hexec : exec (.mrdb addr) s = runSteps (.mrdb addr) [.sendPointer addr, .readRaw] false [] s := rfl
  have hreq := request_sendPointer s addr
  refine ⟨fun q rest hp hq ha => ?_, fun rest hp ha => ?_, fun q rest hp hq ha => ?_⟩
  · rw [hexec, runSteps_succeeds hr rfl hreq ha hp rfl]
    refine Eq.trans (runSteps_succeeds hr rfl rfl rfl hq rfl) ?_
    simp [respond, okResponse, operationResult, takeAnswer, sendRequest, chips_after_pointerRequest, chips_after_rdraw]
  · rw [hexec, runSteps_fails hr rfl hreq ha hp]
    simp [raiseError, respond, errorResponse, takeAnswer, sendRequest, chips_after_pointerRequest, hp,
      MicroOp.errorField]
  · rw [hexec, runSteps_succeeds hr rfl hreq ha hp rfl]
    refine Eq.trans (runSteps_fails hr rfl rfl rfl hq) ?_
    simp [raiseError, respond, errorResponse, takeAnswer, sendRequest, chips_after_pointerRequest, chips_after_rdraw,
      MicroOp.errorField]

/-! ## MWRB -/

theorem exec_mwrb (addr : LinearAddress) (v : Byte) (s : State) :
    exec (.mwrb addr v) s = runSteps (.mwrb addr v) [.sendData addr v, .waitSettle] false [] s := rfl

/-- Settles O33: the data write succeeds, and the timer elapses. -/
theorem mwrbWritesThenSettles : Obligations.MwrbWritesThenSettles := by
  intro s addr v p rest extra extras hr hp ha he
  rw [exec_mwrb, runSteps_succeeds hr rfl (request_sendData s addr v) ha hp rfl]
  have hset := performStep_settled (s := takeAnswer (dataRequest s addr v) p rest (sendRequest (dataRequest s addr v) s))
    hr.2 he false
  rw [runSteps_done hset]
  simp [respond, okResponse, operationResult, elapseSettle, startSettle, takeAnswer, sendRequest, chips_after_dataRequest,
    hp, Config.settleMs]

/-- Settles O34: the data write fails, which ends the operation. -/
theorem mwrbFailureTakesNoSettleDelay : Obligations.MwrbFailureTakesNoSettleDelay := by
  intro s t addr v p rest hr hp ha h
  rw [exec_mwrb, runSteps_fails hr rfl (request_sendData s addr v) ha hp] at h
  cases h
  refine ⟨rfl, rfl, rfl, rfl, rfl, rfl, rfl, ?_⟩
  simp [chips_after_dataRequest, hp]

/-- The settle wait, the last step of an operation: it waits with the timer running, or the timer has elapsed. -/
theorem runSteps_settle_cases (h : runSteps i [.waitSettle] issued got s = .next t) :
    t = waitAt { instr := i, got := got, todo := [.waitSettle] } (startSettle s) ∨
      ∃ e es, t = respond (okResponse (operationResult i got)) (elapseSettle e es (startSettle s)) := by
  cases ho : s.soleOwner with
  | false =>
    rw [runSteps_refused (performStep_settle_shared ho issued)] at h
    cases h
  | true =>
    cases he : s.settleExtras with
    | nil =>
      rw [runSteps_waiting (performStep_settling ho he issued)] at h
      cases h
      exact .inl rfl
    | cons e es =>
      rw [runSteps_done (performStep_settled ho he issued), List.append_nil] at h
      cases h
      exact .inr ⟨e, es, rfl⟩

/-- The state in which the data write of MWRB has its answer `p`. -/
def afterData (addr : LinearAddress) (v : Byte) (issued : Bool) (p : TransportResponse) (rest : List TransportResponse)
    (s : State) : State := takeAnswer (dataRequest s addr v) p rest (outgoing (dataRequest s addr v) issued s)

/-- The four ways MWRB's steps end. -/
theorem runSteps_mwrb_cases (h : runSteps i [.sendData addr v, .waitSettle] issued got s = .next t) :
    t = waitAt { instr := i, got := got, todo := [.sendData addr v, .waitSettle] }
      (outgoing (dataRequest s addr v) issued s) ∨
    ∃ p rest,
      (p.ok = false ∧ t = raiseError (.transport p.cause none) (afterData addr v issued p rest s)) ∨
      (p.ok = true ∧
        (t = waitAt { instr := i, got := got, todo := [.waitSettle] } (startSettle (afterData addr v issued p rest s)) ∨
          ∃ e es, t = respond (okResponse (operationResult i got))
            (elapseSettle e es (startSettle (afterData addr v issued p rest s))))) := by
  rcases performStep_cases (.sendData addr v) issued s with ⟨e, hc, -⟩ | ⟨hw, -⟩ | ⟨e, es, hw, -⟩ | ⟨x, -, -, hp⟩ |
    ⟨q, -, hq, -, -, hp⟩ | ⟨q, p, rest, -, hq, -, -, ⟨out, hok, hd, hp⟩ | ⟨e, -, hd, -⟩ | ⟨hok, hp⟩⟩
  · cases hc
  · cases hw
  · cases hw
  · rw [runSteps_refused hp] at h
    cases h
  · rw [runSteps_waiting hp] at h
    cases h
    cases hq
    exact .inl rfl
  · cases hd
    cases hq
    rw [runSteps_done hp, List.append_nil] at h
    exact .inr ⟨p, rest, .inr ⟨hok, runSteps_settle_cases h⟩⟩
  · cases hd
  · rw [runSteps_failed hp] at h
    cases h
    cases hq
    exact .inr ⟨p, rest, .inl ⟨hok, rfl⟩⟩

@[simp] theorem afterData_responses (p : TransportResponse) (rest : List TransportResponse) :
    (afterData addr v issued p rest s).responses = s.responses := outgoing_responses _ _ _

@[simp] theorem afterData_elapsedMs (p : TransportResponse) (rest : List TransportResponse) :
    (afterData addr v issued p rest s).elapsedMs = s.elapsedMs := by
  cases issued <;> rfl

/-- What is known of the chips once the data write has its answer. -/
theorem afterData_chips (p : TransportResponse) (rest : List TransportResponse) :
    (afterData addr v issued p rest s).chips =
      { s.chips with
        ptr := none
        writeCycle := true
        mem :=
          if s.chips.writeCycle = true ∨ s.memCapacity ≤ addr.toNat then []
          else if p.ok then Memory.write s.chips.mem addr.toNat v else Memory.forget s.chips.mem addr.toNat } := by
  rw [← chips_after_dataRequest _ _ _ s]
  cases issued <;> rfl

/-- An MWRB that answers `OK` has written its byte and waited for the timer. -/
theorem mwrb_ok {res : Result} (h : exec (.mwrb addr v) s = .next t) (hr : t.responses = s.responses ++ [okResponse res]) :
    ∃ p rest e es, p.ok = true ∧
      t = respond (okResponse .empty) (elapseSettle e es (startSettle (afterData addr v false p rest s))) := by
  rw [exec_mwrb] at h
  rcases runSteps_mwrb_cases h with rfl | ⟨p, rest, ⟨-, rfl⟩ | ⟨hp, rfl | ⟨e, es, rfl⟩⟩⟩
  · simp at hr
  · simp [errorResponse, okResponse] at hr
  · simp at hr
  · exact ⟨p, rest, e, es, hp, rfl⟩

/-- Settles O35: `OK` comes after the timer; the other ends of MWRB's steps are waits and a transport error. -/
theorem mwrbNeverAnswersBeforeSettle : Obligations.MwrbNeverAnswersBeforeSettle := by
  refine ⟨fun s t addr v h hr => ?_, fun s t o h0 hs ho h => ?_, fun s t o addr v h0 hs ho h => ?_⟩
  · obtain ⟨p, rest, e, es, -, rfl⟩ := mwrb_ok h hr
    simp [Config.settleMs]
  · obtain ⟨i, got, todo⟩ := o
    cases ho
    rw [step_busy h0 hs] at h
    rcases runSteps_settle_cases h with rfl | ⟨e, es, rfl⟩
    · exact ⟨rfl, .inl ⟨rfl, rfl, rfl⟩⟩
    · refine ⟨rfl, .inr ⟨rfl, rfl, ?_⟩⟩
      simp [Config.settleMs]
  · obtain ⟨i, got, todo⟩ := o
    cases ho
    rw [step_busy h0 hs] at h
    rcases runSteps_mwrb_cases h with rfl | ⟨p, rest, ⟨-, rfl⟩ | ⟨-, rfl | ⟨e, es, rfl⟩⟩⟩
    · exact ⟨rfl, .inl ⟨rfl, rfl, rfl⟩⟩
    · exact ⟨rfl, .inr (.inr ⟨rfl, _, rfl, .inl rfl⟩)⟩
    · exact ⟨rfl, .inr (.inl ⟨rfl, rfl, rfl⟩)⟩
    · refine ⟨rfl, .inr (.inr ⟨rfl, _, rfl, .inr ⟨rfl, ?_⟩⟩)⟩
      simp [Config.settleMs]

/-- Settles O36: the byte is known after MWRB, so the device that keeps its contract delivers it to MRDB. -/
theorem memoryWriteThenReadReturnsTheByte : Obligations.MemoryWriteThenReadReturnsTheByte := by
  intro s t addr v p q rest h hready hr hcap hw hp hq hread
  have hknown : t.chips.readBack addr = some v := by
    obtain ⟨p', rest', e, es, hok, rfl⟩ := mwrb_ok h hr
    simp [Chips.readBack, afterData_chips, hw, Nat.not_le.2 hcap, hok, Memory.read_write_same]
  have hmrdb := (mrdbAnswersTheByteRead { t with answers := p :: q :: rest } addr p hready).1 q rest hp hq rfl
  exact ⟨_, hmrdb, by rw [hread v hknown]⟩

/-- Settles O37: the data write concerns its own address alone, the pointer write and the raw read no byte. -/
theorem addressorLeavesOtherBytesUntouched : Obligations.AddressorLeavesOtherBytesUntouched := by
  refine ⟨fun s t addr v h => ?_, fun i s t addr hi h => ?_⟩
  · have hdata (p : TransportResponse) (rest : List TransportResponse) :
        (afterData addr v false p rest s).chips.clock = s.chips.clock ∧
          (s.chips.writeCycle = false → addr.toNat < s.memCapacity → ∀ x : Nat, x ≠ addr.toNat →
            Memory.read (afterData addr v false p rest s).chips.mem x = Memory.read s.chips.mem x) := by
      rw [afterData_chips]
      refine ⟨rfl, fun hw hcap x hx => ?_⟩
      simp only [hw, Nat.not_le.2 hcap, Bool.false_eq_true, or_self, if_false]
      split
      · exact Memory.read_write_other _ _ hx
      · exact Memory.read_forget_other _ hx
    rw [exec_mwrb] at h
    rcases runSteps_mwrb_cases h with rfl | ⟨p, rest, ⟨-, rfl⟩ | ⟨-, rfl | ⟨e, es, rfl⟩⟩⟩
    · exact ⟨rfl, fun _ _ _ _ => rfl⟩
    · exact hdata p rest
    · exact hdata p rest
    · exact hdata p rest
  · have hplan : isCodec i = false ∧ ∀ m ∈ planOf s.hostTime i, m = .sendPointer addr ∨ m = .readRaw := by
      rcases hi with rfl | rfl <;> simp [isCodec, planOf]
    rw [exec_eq_runSteps hplan.1] at h
    have hparts := runSteps_keeps_part
      (fun s : State => (s.chips.clock, s.chips.writeCycle, if s.chips.writeCycle then [] else s.chips.mem))
      (fun m hm => by
        refine ⟨fun _ _ _ => rfl, fun s q a rest hq => ?_, ?_⟩
        · rcases hplan.2 m hm with rfl | rfl
          · cases hq
            cases hw : s.chips.writeCycle <;> simp [Chips.after, hw]
          · cases hq
            rfl
        · rintro rfl
          simpa using hplan.2 _ hm) h
    simp only [Prod.mk.injEq] at hparts
    obtain ⟨hclock, hcycle, hmem⟩ := hparts
    exact ⟨hclock, hcycle, fun hw => by simpa [hcycle, hw] using hmem⟩

end Sys2Proof.Machine
end

section
/-! # The invariant, refusals and hangs (R31, R35, R38, R217, R221, R226)

The link, the offsets and the canonical stores are kept by every update of a run. Where a run can wait is an invariant of
its steps: the timer is stopped unless the next step is the settle wait, and the bytes got and to come make the result. -/

namespace Sys2Proof.Machine

variable {i : Instr} {todo : List MicroOp} {issued : Bool} {got : List Byte} {s t : State}

/-! ## What the invariant says of the state but for the sequencer -/

/-- Every part of the invariant but the sequencer's position. -/
structure SoundApartFromSeq (s : State) : Prop where
  link : s.linkOpen = true
  offsets : legalOffsets s.offsets
  chips : s.chips.Canonical

theorem inv_iff : s.Inv ↔ SoundApartFromSeq s ∧ s.seq.wellPlaced s.settle :=
  ⟨fun ⟨hl, ho, hp, hcw, hcb, hmw, hmb⟩ => ⟨⟨hl, ho, hcw, hcb, hmw, hmb⟩, hp⟩,
    fun ⟨⟨hl, ho, hcw, hcb, hmw, hmb⟩, hp⟩ => ⟨hl, ho, hp, hcw, hcb, hmw, hmb⟩⟩

/-- The end of a write cycle forgets nothing. -/
theorem Chips.Canonical.endWriteCycle {c : Chips} (h : c.Canonical) : { c with writeCycle := false : Chips }.Canonical :=
  ⟨h.clockWf, h.clockBound, h.memWf, h.memBound⟩

/-- From `s` to `t` the rest of the invariant is kept. -/
def KeepsSound (s t : State) : Prop := SoundApartFromSeq s → SoundApartFromSeq t

/-- The updates that touch neither the link, the offsets nor the chips keep it by their definitions. -/
theorem KeepsSound.of_eq {s t : State} (hl : t.linkOpen = s.linkOpen := by rfl) (ho : t.offsets = s.offsets := by rfl)
    (hc : t.chips = s.chips := by rfl) : KeepsSound s t :=
  fun h => ⟨hl.trans h.link, ho ▸ h.offsets, hc ▸ h.chips⟩

theorem runSteps_keepsSound (h : runSteps i todo issued got s = .next t) : KeepsSound s t :=
  runSteps_relates (P := KeepsSound) (fun _ => id) (fun _ _ _ hab hbc => hbc ∘ hab)
    (send := fun _ _ _ _ _ => .of_eq)
    (take := fun r a _ _ _ hs => ⟨hs.link, hs.offsets, hs.chips.after _ a.ok r⟩)
    (start := fun _ => .of_eq)
    (elapse := fun _ _ _ _ hs => ⟨hs.link, hs.offsets, hs.chips.endWriteCycle⟩)
    (wait := fun _ _ => .of_eq)
    (resp := fun _ _ => .of_eq) h

/-! ## Where a run waits -/

/-- A step that succeeds delivers as many bytes as the count of them says. -/
theorem receive_length {m : MicroOp} {d : Byte} {out : List Byte} (h : m.receive d = .ok out) :
    out.length = if m.delivers then 1 else 0 := by
  cases m with
  | readField k =>
    simp only [MicroOp.receive] at h
    split at h
    · cases h; rfl
    · cases h
  | _ => cases h; rfl

theorem bytesAccounted_cons {m : MicroOp} {rest : List MicroOp} {out : List Byte}
    (h : bytesAccounted i got (m :: rest)) (hout : out.length = if m.delivers then 1 else 0) :
    bytesAccounted i (got ++ out) rest := by
  cases hm : m.delivers with
  | false =>
    obtain rfl : out = [] := by simpa [hm] using hout
    simpa [bytesAccounted, hm] using h
  | true =>
    have hone : out.length = 1 := by simpa [hm] using hout
    simp only [bytesAccounted, List.filter_cons, hm, if_true, List.length_cons, List.length_append] at h ⊢
    omega

/-- The timer is stopped, or the next step is the settle wait. -/
def TimerFits (todo : List MicroOp) (s : State) : Prop := s.settle = .stopped ∨ ∃ rest, todo = .waitSettle :: rest

theorem TimerFits.stopped {m : MicroOp} {rest : List MicroOp} (h : TimerFits (m :: rest) s) (hm : m ≠ .waitSettle) :
    s.settle = .stopped := by
  rcases h with h | ⟨rest', h⟩
  · exact h
  · exact absurd (List.cons.inj h).1 hm

theorem ne_waitSettle_of_request {m : MicroOp} {q : Request} (h : m.request s = some q) : m ≠ .waitSettle := by
  rintro rfl
  cases h

/-- A run ends `IDLE` with the timer stopped, or waits at a step in order. -/
theorem runSteps_wellPlaced (hb : bytesAccounted i got todo) (ht : TimerFits todo s)
    (h : runSteps i todo issued got s = .next t) : t.seq.wellPlaced t.settle := by
  induction todo generalizing issued got s with
  | nil =>
    cases h
    rcases ht with ht | ⟨rest, hrest⟩
    · exact ht
    · cases hrest
  | cons m rest ih =>
    rcases performStep_cases m issued s with ⟨e, hc, hp⟩ | ⟨rfl, -, -, hp⟩ | ⟨e, es, rfl, -, -, hp⟩ | ⟨x, -, -, hp⟩ |
      ⟨q, hc, hq, -, -, hp⟩ | ⟨q, a, as, -, hq, -, -, hp⟩
    · have hm : m ≠ .waitSettle := by
        rintro rfl
        cases hc
      rw [runSteps_failed hp] at h
      cases h
      exact ht.stopped hm
    · rw [runSteps_waiting hp] at h
      cases h
      exact ⟨_, rest, rfl, rfl, by simp, hb⟩
    · rw [runSteps_done hp] at h
      exact ih (bytesAccounted_cons hb rfl) (.inl rfl) h
    · rw [runSteps_refused hp] at h
      cases h
    · have hstop := ht.stopped (ne_waitSettle_of_request hq)
      rw [runSteps_waiting hp] at h
      cases h
      refine ⟨m, rest, rfl, hc, ?_, hb⟩
      simp [hstop, ne_waitSettle_of_request hq]
    · have hstop : (takeAnswer q a as (outgoing q issued s)).settle = .stopped := by
        simpa using ht.stopped (ne_waitSettle_of_request hq)
      rcases hp with ⟨out, -, hd, hp⟩ | ⟨e, -, -, hp⟩ | ⟨-, hp⟩
      · rw [runSteps_done hp] at h
        exact ih (bytesAccounted_cons hb (receive_length hd)) (.inl hstop) h
      · rw [runSteps_failed hp] at h
        cases h
        exact hstop
      · rw [runSteps_failed hp] at h
        cases h
        exact hstop

/-- A write sequence delivers no byte. -/
theorem writePlan_delivers (x : Byte) (f : FieldBytes) : (writePlan x f).filter MicroOp.delivers = [] := by
  refine List.filter_eq_nil_iff.2 fun m hm => ?_
  obtain ⟨k, -, rfl⟩ := mem_writePlan hm
  nofun

/-- An operation's sequence delivers the bytes its result is made of. -/
theorem bytesAccounted_planOf (v : BitVec 64) (i : Instr) : bytesAccounted i [] (planOf v i) := by
  cases i with
  | wrall x f => simp [bytesAccounted, planOf, writePlan_delivers, resultBytes]
  | wrcomp c f => simp [bytesAccounted, planOf, compositePlan, writePlan_delivers, resultBytes]
  | wrnow => simp [bytesAccounted, planOf, compositePlan, writePlan_delivers, resultBytes]
  | _ => rfl

/-! ## The invariant -/

/-- Settles O51: the default offsets are legal, and nothing is known of the chips. -/
theorem stateInvariantHoldsAtReset : Obligations.StateInvariantHoldsAtReset := by
  have hoffsets : legalOffsets State.reset.offsets := by
    refine ⟨fun k => ?_, fun j k => ?_⟩
    · cases k <;> decide
    · cases j <;> cases k <;> decide
  exact ⟨rfl, hoffsets, rfl, Memory.empty_wf, nofun, Memory.empty_wf, nofun⟩

theorem inv_applyReset (h : s.Inv) (p : Straps) : (applyReset p s).Inv := by
  obtain ⟨hs, -⟩ := inv_iff.1 h
  refine inv_iff.2 ⟨⟨rfl, hs.offsets, ?_⟩, rfl⟩
  cases ho : s.outstanding with
  | none => exact (applyReset_none p ho).1 ▸ hs.chips
  | some q => exact (applyReset_some p ho).1 ▸ hs.chips.after _ _ q

/-- Accepting an operation, `IDLE` with the timer stopped, keeps the invariant. -/
theorem exec_keepsInv (hs : SoundApartFromSeq s) (ht : s.settle = .stopped) (h : exec i s = .next t) : t.Inv := by
  cases hc : isCodec i with
  | true =>
    obtain ⟨r, n, rfl⟩ := eq_of_exec_codec hc h
    exact inv_iff.2 ⟨⟨hs.link, hs.offsets, hs.chips⟩, ht⟩
  | false =>
    rw [exec_eq_runSteps hc] at h
    exact inv_iff.2 ⟨runSteps_keepsSound h hs, runSteps_wellPlaced (bytesAccounted_planOf _ _) (.inl ht) h⟩

/-- Going on with an operation in order keeps the invariant. -/
theorem resume_keepsInv {o : Operation} (h : s.Inv) (hs : s.seq = .busy o)
    (hrun : runSteps o.instr o.todo true o.got s = .next t) : t.Inv := by
  obtain ⟨hsound, hplaced⟩ := inv_iff.1 h
  rw [hs] at hplaced
  obtain ⟨m, rest, htodo, -, htimer, hbytes⟩ := hplaced
  refine inv_iff.2 ⟨runSteps_keepsSound hrun hsound, runSteps_wellPlaced hbytes ?_ hrun⟩
  cases ht : s.settle with
  | stopped => exact .inl ht
  | running => exact .inr ⟨rest, by rw [htodo, htimer.1 ht]⟩

/-- Settles O52: a reset, an operation gone on with or accepted, and the host's other events keep the invariant. -/
theorem stateInvariantIsKeptByEveryStep : Obligations.StateInvariantIsKeptByEveryStep := by
  intro s t hinv h
  cases h0 : s.rst with
  | some p =>
    rw [step_reset h0] at h
    cases h
    exact inv_applyReset hinv p
  | none =>
    rcases step_cases h0 h with ⟨o, hs, hrun⟩ | ⟨hs, hidle⟩
    · exact resume_keepsInv hinv hs hrun
    · obtain ⟨hsound, hplaced⟩ := inv_iff.1 hinv
      have hstop : s.settle = .stopped := by rwa [hs] at hplaced
      rcases hidle with ⟨-, rfl⟩ | ⟨i, rest, hexec⟩ | ⟨rest, rfl⟩ | ⟨rest, v, rfl⟩ | ⟨rest, e, -, rfl⟩
      · exact hinv
      · exact exec_keepsInv (s := { s with hostQueue := rest }) ⟨hsound.link, hsound.offsets, hsound.chips⟩ hstop hexec
      · exact inv_iff.2 ⟨⟨hsound.link, hsound.offsets, hsound.chips⟩, hstop⟩
      · exact inv_iff.2 ⟨⟨hsound.link, hsound.offsets, hsound.chips⟩, hplaced⟩
      · exact inv_iff.2 ⟨⟨hsound.link, hsound.offsets, hsound.chips.endWriteCycle⟩, hplaced⟩

/-- A step that issued a response has left the block `IDLE`. -/
theorem idle_of_response (h0 : s.rst = none) (h : step s = .next t) (hr : t.responses ≠ s.responses) : t.seq = .idle := by
  rcases step_cases h0 h with ⟨o, hs, -⟩ |
    ⟨hs, ⟨-, rfl⟩ | ⟨i, rest, hexec⟩ | ⟨rest, rfl⟩ | ⟨rest, v, rfl⟩ | ⟨rest, e, -, rfl⟩⟩
  · rcases oneResponsePerAcceptedCommand.2 s t o h0 hs h with ⟨hidle, -⟩ | ⟨-, -, -, hsame⟩
    · exact hidle
    · exact absurd hsame hr
  · exact hs
  · rcases oneResponsePerAcceptedCommand.1 i _ t hexec with ⟨hidle, -⟩ | ⟨-, -, -, hsame⟩
    · exact hidle
    · exact absurd hsame hr
  · rfl
  · exact hs
  · exact hs

/-- Settles O47: the block is `IDLE`, and the invariant gives the rest. -/
theorem everyResponseLeavesTheBlockIdle : Obligations.EveryResponseLeavesTheBlockIdle := by
  intro s t hinv h0 h hr
  have hidle := idle_of_response h0 h hr
  have hplaced := (stateInvariantIsKeptByEveryStep s t hinv h).placed
  rw [hidle] at hplaced
  exact ⟨hidle, hplaced, outstanding_idle hidle⟩

/-! ## Hangs -/

/-- While its request is not answered, going on with an operation leaves the state as it is. -/
theorem step_unanswered {q : Request} (hinv : s.Inv) (hsole : s.soleOwner = true) (h0 : s.rst = none)
    (ho : s.outstanding = some q) (ha : s.answers = []) : step s = .next s := by
  rcases idle_or_busy s with hs | ⟨⟨i, got, todo⟩, hs⟩
  · rw [outstanding_idle hs] at ho
    cases ho
  · have hplaced := hinv.placed
    rw [hs] at hplaced
    obtain ⟨m, rest, rfl, hc, -⟩ := hplaced
    have hq : m.request s = some q := by simpa only [State.outstanding, hs] using ho
    have hrun := runSteps_waiting (i := i) (rest := rest) (got := got)
      (performStep_silent ⟨hinv.link, hsole⟩ hc hq ha true)
    rw [step_busy h0 hs, hrun, outgoing_issued, waitAt, ← hs]

/-- Settles O44: the step is a fixed point, so any number of steps is. -/
theorem unansweredRequestHangsTheBlock : Obligations.UnansweredRequestHangsTheBlock :=
  fun s _ n hinv hsole h0 ho ha => run_of_step_fixed Sys2Proof.core s n (step_unanswered hinv hsole h0 ho ha)

/-! ## Refusals -/

/-- An operation whose first step makes a request. -/
def StartsWithRequest (s : State) (i : Instr) : Prop :=
  isCodec i = false ∧ ∃ m rest, planOf s.hostTime i = m :: rest ∧ m.check = none ∧ m ≠ .waitSettle

theorem refuses_shared {m : MicroOp} (hl : s.linkOpen = true) (ho : s.soleOwner = false) :
    s.refuses m = some .transportShared := by
  cases m <;> simp [State.refuses, hl, ho]

theorem refuses_closed {m : MicroOp} (hm : m ≠ .waitSettle) (hl : s.linkOpen = false) :
    s.refuses m = some .linkNotOpen := by
  cases m with
  | waitSettle => exact absurd rfl hm
  | _ => simp [State.refuses, hl]

/-- It is refused whatever refuses a request. -/
theorem StartsWithRequest.refused (h : StartsWithRequest s i) :
    (s.linkOpen = true → s.soleOwner = false → exec i s = .refused .transportShared) ∧
      (s.linkOpen = false → exec i s = .refused .linkNotOpen) := by
  obtain ⟨hi, m, rest, hplan, hc, hm⟩ := h
  rw [exec_eq_runSteps hi, hplan]
  exact ⟨fun hl ho => runSteps_refused (performStep_refused hc (refuses_shared hl ho) false),
    fun hl => runSteps_refused (performStep_refused hc (refuses_closed hm hl) false)⟩

/-- WRCOMP and WRNOW start with the write of the seconds. -/
theorem compositePlan_eq_cons (c : Byte) (f : FieldBytes) :
    ∃ rest, compositePlan c f = .writeField .sec f.sec :: rest := ⟨_, rfl⟩

theorem startsWithRequest_compositePlan {c : Byte} {f : FieldBytes} (hi : isCodec i = false)
    (hplan : planOf s.hostTime i = compositePlan c f) (hsec : f.sec.toNat ≤ 59) : StartsWithRequest s i := by
  obtain ⟨rest, hrest⟩ := compositePlan_eq_cons c f
  exact ⟨hi, _, rest, hplan.trans hrest, check_writeField ⟨Nat.zero_le _, hsec⟩, nofun⟩

theorem startsWithRequest_wrall {x : Byte} {f : FieldBytes} {k : TimeField} {post : List TimeField}
    (h : writeOrder.filter (presentIn x) = k :: post) (hk : fieldLo k ≤ (f.get k).toNat ∧ (f.get k).toNat ≤ fieldHi k) :
    StartsWithRequest s (.wrall x f) :=
  ⟨rfl, .writeField k (f.get k), post.map fun k => .writeField k (f.get k),
    by rw [planOf, writePlan, h, List.map_cons], check_writeField hk, nofun⟩

/-- Settles O45: the first request of an operation, the step gone on with, and the pause are refused; the codec, which
makes no request, is not. -/
theorem sharedTransportIsRefused : Obligations.SharedTransportIsRefused := by
  refine ⟨fun s i hi => StartsWithRequest.refused ?_, fun s o m rest h0 hs htodo hc hl ho => ?_,
    fun s extra rest h0 hs hq ho => ?_, fun s b => ⟨?_, ?_⟩⟩
  · rcases hi with ⟨c, rfl⟩ | rfl | ⟨a, rfl⟩ | ⟨a, rfl⟩ | ⟨a, v, rfl⟩ | ⟨x, f, k, post, rfl, hx, hlo, hhi⟩ |
      ⟨c, f, rfl, hsec⟩ | ⟨rfl, hsec⟩
    · exact ⟨rfl, _, _, rfl, rfl, nofun⟩
    · exact ⟨rfl, _, _, rfl, rfl, nofun⟩
    · exact ⟨rfl, _, _, rfl, rfl, nofun⟩
    · exact ⟨rfl, _, _, rfl, rfl, nofun⟩
    · exact ⟨rfl, _, _, rfl, rfl, nofun⟩
    · exact startsWithRequest_wrall hx ⟨hlo, hhi⟩
    · exact startsWithRequest_compositePlan rfl rfl hsec
    · exact startsWithRequest_compositePlan (f := FieldBytes.ofPayload s.hostTime) rfl rfl hsec
  · rw [step_busy h0 hs, htodo]
    exact runSteps_refused (performStep_refused hc (refuses_shared hl ho) true)
  · exact (step_pause h0 hs hq).trans (pauseCommand_shared ho)
  · obtain ⟨r, n, hn⟩ := exec_codec (i := .bcddec b) rfl s.freeDraws
    exact ⟨_, hn s rfl⟩
  · obtain ⟨r, n, hn⟩ := exec_codec (i := .bcdenc b) rfl s.freeDraws
    exact ⟨_, hn s rfl⟩

end Sys2Proof.Machine
end

section
/-! # The assembler (R105, R106, D28)

Below the characters a line is its mnemonic and its operands, one equation for each form. The digits of a number are read
back as the number. A list of assignments is read entry by entry, and what a name is assigned in a list without a name twice
is what stands beside it, in whatever order. -/

namespace Sys2Proof.Machine

/-! ## Numbers -/

/-- The bases of R105. -/
def AssemblerBase (b : Nat) : Prop := b = 10 ∨ b = 16

theorem digitValue_digitChar {b d : Nat} (hb : AssemblerBase b) (hd : d < b) : digitValue b d.digitChar = some d := by
  rcases hb with rfl | rfl
  · revert d; decide
  · revert d; decide

theorem digitsValue_append (b n : Nat) (cs ds : List Char) :
    digitsValue b n (cs ++ ds) = (digitsValue b n cs).bind fun m => digitsValue b m ds := by
  induction cs generalizing n with
  | nil => rfl
  | cons c cs ih =>
    simp only [List.cons_append, digitsValue, Option.bind_assoc]
    exact congrArg _ (funext fun d => ih _)

theorem digitsValue_singleton {b d : Nat} (hb : AssemblerBase b) (hd : d < b) (n : Nat) :
    digitsValue b n [d.digitChar] = some (n * b + d) := by
  simp [digitsValue, digitValue_digitChar hb hd]

/-- The digits of a number are read back as the number. -/
theorem digitsValue_toDigits {b : Nat} (hb : AssemblerBase b) (n : Nat) : digitsValue b 0 (Nat.toDigits b n) = some n := by
  have hb1 : 1 < b := by rcases hb with rfl | rfl <;> decide
  induction n using Nat.strongRecOn with
  | ind n ih =>
    rcases Nat.lt_or_ge n b with hlt | hge
    · rw [Nat.toDigits_of_lt_base hlt, digitsValue_singleton hb hlt]
      simp
    · rw [Nat.toDigits_of_base_le hb1 hge, digitsValue_append, ih (n / b) (Nat.div_lt_self (by omega) hb1)]
      rw [Option.bind_some, digitsValue_singleton hb (Nat.mod_lt n (by omega)), Nat.div_add_mod']

/-- A decimal number: none of its digits is the `x` of a hexadecimal one. -/
theorem numberValue_decimal (n : Nat) : numberValue (Nat.toDigits 10 n) = some n := by
  have hx : 'x' ∉ Nat.toDigits 10 n := fun h =>
    absurd (Nat.isDigit_of_mem_toDigits (by decide) (by decide) h) (by decide)
  have hval := digitsValue_toDigits (.inl rfl) n
  unfold numberValue
  split
  · next h => exact absurd h Nat.toDigits_ne_nil
  · next h => simp [h] at hx
  · next h => simp [h] at hx
  · exact hval

theorem numberValue_hexadecimal (n : Nat) : numberValue ('0' :: 'x' :: Nat.toDigits 16 n) = some n := by
  have hval := digitsValue_toDigits (.inr rfl) n
  cases h : Nat.toDigits 16 n with
  | nil => exact absurd h Nat.toDigits_ne_nil
  | cons c cs => rwa [h] at hval

theorem byteOperand_of_numberValue {cs : List Char} {n : Nat} (h : numberValue cs = some n) :
    byteOperand cs = if n ≤ 255 then some (BitVec.ofNat 8 n) else none := by
  simp [byteOperand, h]

theorem addressOperand_of_numberValue {cs : List Char} {n : Nat} (h : numberValue cs = some n) :
    addressOperand cs = if n ≤ 65535 then some (BitVec.ofNat 16 n) else none := by
  simp [addressOperand, h]

/-! ## The forms with one or two operands -/

section
variable (cs ds : List Char)

theorem assembleLexemes_bcddec :
    assembleLexemes [.atom "BCDDEC".toList, .atom cs] = (byteOperand cs).map .bcddec := rfl

theorem assembleLexemes_bcdenc :
    assembleLexemes [.atom "BCDENC".toList, .atom cs] = (byteOperand cs).map .bcdenc := rfl

theorem assembleLexemes_rdall : assembleLexemes [.atom "RDALL".toList, .atom cs] = (byteOperand cs).map .rdall := rfl

theorem assembleLexemes_setaddr :
    assembleLexemes [.atom "SETADDR".toList, .atom cs] = (addressOperand cs).map .setaddr := rfl

theorem assembleLexemes_mrdb : assembleLexemes [.atom "MRDB".toList, .atom cs] = (addressOperand cs).map .mrdb := rfl

theorem assembleLexemes_mwrb :
    assembleLexemes [.atom "MWRB".toList, .atom cs, .comma, .atom ds] =
      (addressOperand cs).bind fun a => (byteOperand ds).map (.mwrb a) := rfl

end

theorem assembleLexemes_wrall (ls : List Lexeme) :
    assembleLexemes (.atom "WRALL".toList :: ls) = (assignments ls).bind assembleWrall := rfl

theorem assembleLexemes_wrcomp (ls : List Lexeme) :
    assembleLexemes (.atom "WRCOMP".toList :: ls) = (assignments ls).bind assembleWrcomp := rfl

/-! ## Lists of assignments -/

/-- The assignments a list of names and number texts makes, each number as its value. -/
def valued (as : List (OperandName × List Char)) : List (OperandName × Byte) :=
  as.map fun p => (p.1, (byteOperand p.2).getD 0)

theorem valued_names (as : List (OperandName × List Char)) : (valued as).map (·.1) = as.map (·.1) := by
  simp [valued, Function.comp_def]

theorem operandName_text (n : OperandName) : operandName n.text = some n := by
  cases n with
  | cent => decide
  | field k => cases k <;> decide

/-- A list is read entry by entry, and not at all where one value does not fit. -/
theorem assignments_assignmentLexemes (as : List (OperandName × List Char)) :
    assignments (assignmentLexemes as) =
      if ∀ p ∈ as, (byteOperand p.2).isSome = true then some (valued as) else none := by
  induction as with
  | nil => rfl
  | cons p ps ih =>
    obtain ⟨n, cs⟩ := p
    have hcons : assignments (assignmentLexemes ((n, cs) :: ps)) =
        (byteOperand cs).bind fun b => (assignments (assignmentLexemes ps)).map ((n, b) :: ·) := by
      cases ps with
      | nil => simp [assignmentLexemes, assignments, operandName_text, Option.map_eq_bind]
      | cons q qs =>
        obtain ⟨l, ls, hl⟩ : ∃ l ls, assignmentLexemes (q :: qs) = l :: ls := by
          cases qs <;> exact ⟨_, _, rfl⟩
        simp [assignmentLexemes, hl, assignments, operandName_text]
    rw [hcons, ih]
    cases hb : byteOperand cs with
    | none => simp [hb]
    | some b =>
      by_cases hps : ∀ p ∈ ps, (byteOperand p.2).isSome = true
      · have hall : ∀ p ∈ (n, cs) :: ps, (byteOperand p.2).isSome = true := List.forall_mem_cons.2 ⟨by simp [hb], hps⟩
        rw [if_pos hps, if_pos hall]
        simp [valued, hb]
      · rw [if_neg hps, if_neg fun h => hps (List.forall_mem_cons.1 h).2]
        rfl

theorem assigned_cons (n k : OperandName) (b : Byte) (bs : List (OperandName × Byte)) :
    assigned k ((n, b) :: bs) = if n = k then some b else assigned k bs := by
  by_cases h : n = k <;> simp [assigned, h]

theorem assigned_isSome_iff (k : OperandName) (bs : List (OperandName × Byte)) :
    (assigned k bs).isSome = true ↔ k ∈ bs.map (·.1) := by
  simp [assigned]

theorem assigned_eq_none_iff (k : OperandName) (bs : List (OperandName × Byte)) :
    assigned k bs = none ↔ k ∉ bs.map (·.1) := by
  rw [← assigned_isSome_iff, Option.not_isSome_iff_eq_none]

/-- Where no name stands twice, a name is assigned what stands beside it. -/
theorem assigned_eq_some_iff {bs : List (OperandName × Byte)} (h : (bs.map (·.1)).Nodup) (k : OperandName) (b : Byte) :
    assigned k bs = some b ↔ (k, b) ∈ bs := by
  induction bs with
  | nil => simp [assigned]
  | cons p ps ih =>
    obtain ⟨n, c⟩ := p
    obtain ⟨hn, hps⟩ := List.nodup_cons.1 h
    rw [assigned_cons, List.mem_cons, Prod.mk.injEq]
    by_cases hnk : n = k
    · subst hnk
      have hnot : (n, b) ∉ ps := fun hmem => hn (List.mem_map.2 ⟨_, hmem, rfl⟩)
      simp [hnot, eq_comm]
    · simp [hnk, Ne.symm hnk, ih hps]

/-- What is assigned does not depend on the order. -/
theorem assigned_perm {as bs : List (OperandName × Byte)} (hp : as.Perm bs) (h : (as.map (·.1)).Nodup) (k : OperandName) :
    assigned k as = assigned k bs := by
  have h' : (bs.map (·.1)).Nodup := (hp.map (·.1)).nodup_iff.1 h
  ext b
  rw [assigned_eq_some_iff h, assigned_eq_some_iff h', hp.mem_iff]

/-- The byte beside a name in a list of texts is the byte the name is assigned. -/
theorem assigned_valued {as : List (OperandName × List Char)} (hn : (as.map (·.1)).Nodup)
    (hv : ∀ p ∈ as, (byteOperand p.2).isSome = true) {k : OperandName} {cs : List Char} (h : (k, cs) ∈ as) :
    assigned k (valued as) = byteOperand cs := by
  obtain ⟨b, hb⟩ := Option.isSome_iff_exists.1 (hv _ h)
  rw [hb, assigned_eq_some_iff (by rwa [valued_names])]
  exact List.mem_map.2 ⟨(k, cs), h, by simp [hb]⟩

/-! ## WRALL -/

/-- The mask of the fields that have a value (R95). -/
def maskOf (bs : List (OperandName × Byte)) : Byte := readOrder.foldl (fun x k => x ||| presentBit bs k) 0

/-- The bytes of the fields, 0 where a field has no value (R105). -/
def fieldsOf (bs : List (OperandName × Byte)) : FieldBytes :=
  { sec := fieldOrZero bs .sec
    min := fieldOrZero bs .min
    hour := fieldOrZero bs .hour
    wday := fieldOrZero bs .wday
    dom := fieldOrZero bs .dom
    month := fieldOrZero bs .month
    year := fieldOrZero bs .year }

theorem fieldsOf_get (bs : List (OperandName × Byte)) (k : TimeField) : (fieldsOf bs).get k = fieldOrZero bs k := by
  cases k <;> rfl

theorem assembleWrall_eq (bs : List (OperandName × Byte)) :
    assembleWrall bs =
      if (bs.map (·.1)).Nodup ∧ assigned .cent bs = none then some (.wrall (maskOf bs) (fieldsOf bs)) else none := rfl

theorem getLsbD_presentBit (bs : List (OperandName × Byte)) (k : TimeField) (n : Nat) :
    (presentBit bs k).getLsbD n = ((assigned (.field k) bs).isSome && decide (n = fieldIndex k)) := by
  have hk : fieldIndex k < 8 := by cases k <;> decide
  unfold presentBit
  split
  · next h =>
    rw [h, Bool.true_and, BitVec.getLsbD_ofNat, Nat.testBit_two_pow]
    by_cases hn : n = fieldIndex k
    · simp [hn, hk]
    · simp [hn, Ne.symm hn]
  · next h => simp [h]

theorem getLsbD_maskOf (bs : List (OperandName × Byte)) (k : TimeField) :
    (maskOf bs).getLsbD (fieldIndex k) = (assigned (.field k) bs).isSome := by
  simp only [maskOf, readOrder, List.foldl_cons, List.foldl_nil, BitVec.getLsbD_or, getLsbD_presentBit]
  cases k <;> simp [fieldIndex]

/-- The reserved bit of the mask is zero (R94). -/
theorem getLsbD_maskOf_seven (bs : List (OperandName × Byte)) : (maskOf bs).getLsbD 7 = false := by
  simp only [maskOf, readOrder, List.foldl_cons, List.foldl_nil, BitVec.getLsbD_or, getLsbD_presentBit]
  simp [fieldIndex]

/-! ## WRCOMP -/

/-- WRCOMP with every field but the weekday, and no weekday: the bytes, and the century given or 21 (R106). -/
theorem assembleWrcomp_complete {bs : List (OperandName × Byte)} (hn : (bs.map (·.1)).Nodup)
    (hw : assigned (.field .wday) bs = none) (h : ∀ k, k ≠ .wday → .field k ∈ bs.map (·.1)) :
    assembleWrcomp bs = some (.wrcomp ((assigned .cent bs).getD 21) (fieldsOf bs)) := by
  have hval (k : TimeField) (hk : k ≠ .wday) : assigned (.field k) bs = some (fieldOrZero bs k) := by
    obtain ⟨b, hb⟩ := Option.isSome_iff_exists.1 ((assigned_isSome_iff _ bs).2 (h k hk))
    rw [fieldOrZero, hb, Option.getD_some]
  have hzero : fieldOrZero bs .wday = 0 := by rw [fieldOrZero, hw, Option.getD_none]
  simp only [assembleWrcomp, hn, hw, and_self, if_true, hval .sec nofun, hval .min nofun, hval .hour nofun,
    hval .dom nofun, hval .month nofun, hval .year nofun, Option.bind_some, Option.map_some, Config.centuryDefault,
    fieldsOf, hzero]

/-- Nothing is assembled from a list in which a name stands twice, or the weekday, or not each of the six fields. -/
theorem assembleWrcomp_isSome {bs : List (OperandName × Byte)} {i : Instr} (h : assembleWrcomp bs = some i) :
    (bs.map (·.1)).Nodup ∧ .field .wday ∉ bs.map (·.1) ∧ (∀ k, k ≠ .wday → .field k ∈ bs.map (·.1)) ∧
      ∃ c f, i = .wrcomp c f := by
  unfold assembleWrcomp at h
  split at h
  · next hcond =>
    simp only [Option.bind_eq_some_iff, Option.map_eq_some_iff] at h
    obtain ⟨sec, hsec, min, hmin, hour, hhour, dom, hdom, month, hmonth, year, hyear, rfl⟩ := h
    refine ⟨hcond.1, (assigned_eq_none_iff _ _).1 hcond.2, fun k hk => ?_, _, _, rfl⟩
    rw [← assigned_isSome_iff]
    cases k with
    | sec => simp [hsec]
    | min => simp [hmin]
    | hour => simp [hhour]
    | wday => exact absurd rfl hk
    | dom => simp [hdom]
    | month => simp [hmonth]
    | year => simp [hyear]
  · cases h

theorem assembleWrall_isSome {bs : List (OperandName × Byte)} {i : Instr} (h : assembleWrall bs = some i) :
    (bs.map (·.1)).Nodup ∧ .cent ∉ bs.map (·.1) ∧ i = .wrall (maskOf bs) (fieldsOf bs) := by
  rw [assembleWrall_eq] at h
  split at h
  · next hcond =>
    cases h
    exact ⟨hcond.1, (assigned_eq_none_iff _ _).1 hcond.2, rfl⟩
  · cases h

/-! ## Every assembled operation is well formed -/

/-- An operand form whose constructor is not WRALL's gives no WRALL. -/
theorem map_ne_wrall {α : Type} {mk : α → Instr} (hmk : ∀ v x f, mk v ≠ .wrall x f) {o : Option α} {x : Byte}
    {f : FieldBytes} : o.map mk ≠ some (.wrall x f) := by
  cases o with
  | none => nofun
  | some v => exact fun h => hmk v x f (Option.some.inj h)

/-- A line that gives WRALL is one of WRALL's form: the other mnemonics give their own operations. -/
theorem wrall_of_assembleLexemes {ls : List Lexeme} {x : Byte} {f : FieldBytes}
    (h : assembleLexemes ls = some (.wrall x f)) : ∃ bs, assembleWrall bs = some (.wrall x f) := by
  revert h
  unfold assembleLexemes
  split
  · refine of_ite_eq ?bcddec (of_ite_eq ?bcdenc (of_ite_eq ?rdall (of_ite_eq ?wrall (of_ite_eq ?wrcomp
      (of_ite_eq (fun _ => of_ite_eq nofun nofun) (of_ite_eq (fun _ => of_ite_eq nofun nofun)
      (of_ite_eq ?setaddr (of_ite_eq ?mrdb (of_ite_eq ?mwrb nofun)))))))))
    case wrall =>
      intro _ h
      obtain ⟨bs, -, hbs⟩ := Option.bind_eq_some_iff.1 h
      exact ⟨bs, hbs⟩
    case wrcomp =>
      intro _ h
      obtain ⟨bs, -, hbs⟩ := Option.bind_eq_some_iff.1 h
      obtain ⟨-, -, -, c, g, hi⟩ := assembleWrcomp_isSome hbs
      cases hi
    case mwrb =>
      intro _ h
      split at h
      · obtain ⟨a, -, ha⟩ := Option.bind_eq_some_iff.1 h
        exact absurd ha (map_ne_wrall nofun)
      · cases h
    case rdall =>
      intro _ h
      split at h
      · cases h
      · exact absurd h (map_ne_wrall nofun)
      · cases h
    all_goals
      intro _ h
      split at h
      · exact absurd h (map_ne_wrall nofun)
      · cases h
  · nofun

/-- The one check the operand types leave open is the reserved mask bit, which WRALL's form never sets. -/
theorem assembleLexemes_wellFormed {ls : List Lexeme} {i : Instr} (h : assembleLexemes ls = some i) :
    i.wellFormed = true := by
  cases i with
  | wrall x f =>
    obtain ⟨bs, hbs⟩ := wrall_of_assembleLexemes h
    obtain ⟨-, -, hi⟩ := assembleWrall_isSome hbs
    cases hi
    rw [Instr.wellFormed, getLsbD_maskOf_seven, Bool.not_false]
  | _ => rfl

end Sys2Proof.Machine
end

section
/-! # What the assembler accepts and refuses (R105, R106, D28)

Both statements are put together from the forms of a line, the numbers, and what a list of assignments assigns. -/

namespace Sys2Proof.Machine

variable {as bs : List (OperandName × List Char)}

/-! ## Lines -/

/-- An assembled line is the word of a well-formed operation. -/
theorem word_of_assembleLine {line : String} {w : CommandWord} (h : assembleLine line = .word w) :
    ∃ i, decode w = .command i ∧ i.wellFormed = true ∧ w = encode i := by
  unfold assembleLine at h
  split at h
  · cases h
  · cases h
  · split at h
    · next i hi =>
      cases h
      have hwf := assembleLexemes_wellFormed hi
      exact ⟨i, decodeOfEncodeIsTheOperation i hwf, hwf, rfl⟩
    · cases h

/-- A minus sign is no character of a line, so the lexer stops there, whatever it has read (R105). -/
theorem lexLine_minus {cs ds : List Char} (h : ';' ∉ cs) (acc : List Char) : lexLine acc (cs ++ '-' :: ds) = none := by
  induction cs generalizing acc with
  | nil => rfl
  | cons c cs ih =>
    rw [List.mem_cons, not_or] at h
    obtain ⟨hc, hcs⟩ := h
    simp only [List.cons_append, lexLine, Ne.symm hc, if_false, ih hcs, Option.map_none, ite_self]

theorem assembleLine_minus {cs ds : List Char} (h : ';' ∉ cs) :
    assembleLine (String.ofList (cs ++ '-' :: ds)) = .refused := by
  simp only [assembleLine, String.toList_ofList, lexLine_minus h]

/-! ## WRALL and WRCOMP with a list of operands -/

theorem wrall_accepted (hv : ∀ p ∈ as, (byteOperand p.2).isSome = true) :
    assembleLexemes (.atom "WRALL".toList :: assignmentLexemes as) = assembleWrall (valued as) := by
  rw [assembleLexemes_wrall, assignments_assignmentLexemes, if_pos hv, Option.bind_some]

theorem wrcomp_accepted (hv : ∀ p ∈ as, (byteOperand p.2).isSome = true) :
    assembleLexemes (.atom "WRCOMP".toList :: assignmentLexemes as) = assembleWrcomp (valued as) := by
  rw [assembleLexemes_wrcomp, assignments_assignmentLexemes, if_pos hv, Option.bind_some]

/-- A value that does not fit refuses the list. -/
theorem lists_refused_of_value (hv : ¬ ∀ p ∈ as, (byteOperand p.2).isSome = true) :
    assembleLexemes (.atom "WRALL".toList :: assignmentLexemes as) = none ∧
      assembleLexemes (.atom "WRCOMP".toList :: assignmentLexemes as) = none := by
  rw [assembleLexemes_wrall, assembleLexemes_wrcomp, assignments_assignmentLexemes, if_neg hv]
  exact ⟨rfl, rfl⟩

/-- What a list that gives a WRALL has. -/
theorem names_of_wrall {i : Instr}
    (h : assembleLexemes (.atom "WRALL".toList :: assignmentLexemes as) = some i) :
    (∀ p ∈ as, (byteOperand p.2).isSome = true) ∧ (as.map (·.1)).Nodup ∧ .cent ∉ as.map (·.1) := by
  by_cases hv : ∀ p ∈ as, (byteOperand p.2).isSome = true
  · rw [wrall_accepted hv] at h
    obtain ⟨hn, hc, -⟩ := assembleWrall_isSome h
    rw [valued_names] at hn hc
    exact ⟨hv, hn, hc⟩
  · rw [(lists_refused_of_value hv).1] at h
    cases h

/-- What a list that gives a WRCOMP has. -/
theorem names_of_wrcomp {i : Instr}
    (h : assembleLexemes (.atom "WRCOMP".toList :: assignmentLexemes as) = some i) :
    (∀ p ∈ as, (byteOperand p.2).isSome = true) ∧ (as.map (·.1)).Nodup ∧ .field .wday ∉ as.map (·.1) ∧
      ∀ k, k ≠ .wday → .field k ∈ as.map (·.1) := by
  by_cases hv : ∀ p ∈ as, (byteOperand p.2).isSome = true
  · rw [wrcomp_accepted hv] at h
    obtain ⟨hn, hw, hk, -⟩ := assembleWrcomp_isSome h
    rw [valued_names] at hn hw hk
    exact ⟨hv, hn, hw, hk⟩
  · rw [(lists_refused_of_value hv).2] at h
    cases h

/-- The byte of a field in the operation is the byte beside its name; 0 without the name. -/
theorem fieldsOf_valued (hn : (as.map (·.1)).Nodup) (hv : ∀ p ∈ as, (byteOperand p.2).isSome = true) (k : TimeField) :
    (∀ cs, (.field k, cs) ∈ as → byteOperand cs = some ((fieldsOf (valued as)).get k)) ∧
      (.field k ∉ as.map (·.1) → (fieldsOf (valued as)).get k = 0) := by
  rw [fieldsOf_get, fieldOrZero]
  refine ⟨fun cs hmem => ?_, fun hk => ?_⟩
  · obtain ⟨b, hb⟩ := Option.isSome_iff_exists.1 (hv _ hmem)
    rw [assigned_valued hn hv hmem, hb, Option.getD_some]
  · rw [(assigned_eq_none_iff _ _).2 (by rwa [valued_names]), Option.getD_none]

/-- WRALL with different field names: mask bit and byte of each name, and no other (R105). -/
theorem wrall_of_names (hn : (as.map (·.1)).Nodup) (hc : .cent ∉ as.map (·.1))
    (hv : ∀ p ∈ as, (byteOperand p.2).isSome = true) :
    ∃ x f, assembleLexemes (.atom "WRALL".toList :: assignmentLexemes as) = some (.wrall x f) ∧ x.getLsbD 7 = false ∧
      ∀ k, (x.getLsbD (fieldIndex k) = true ↔ .field k ∈ as.map (·.1)) ∧
        (∀ cs, (.field k, cs) ∈ as → byteOperand cs = some (f.get k)) ∧ (.field k ∉ as.map (·.1) → f.get k = 0) := by
  refine ⟨maskOf (valued as), fieldsOf (valued as), ?_, getLsbD_maskOf_seven _, fun k => ⟨?_, fieldsOf_valued hn hv k⟩⟩
  · rw [← valued_names] at hn hc
    rw [wrall_accepted hv, assembleWrall_eq, if_pos ⟨hn, (assigned_eq_none_iff _ _).2 hc⟩]
  · rw [getLsbD_maskOf, assigned_isSome_iff, valued_names]

/-- WRCOMP with the six names: their bytes, weekday 0, and the century given or 21 (R105, R106). -/
theorem wrcomp_of_names (hn : (as.map (·.1)).Nodup) (hw : .field .wday ∉ as.map (·.1))
    (hk : ∀ k, k ≠ .wday → .field k ∈ as.map (·.1)) (hv : ∀ p ∈ as, (byteOperand p.2).isSome = true) :
    ∃ c f, assembleLexemes (.atom "WRCOMP".toList :: assignmentLexemes as) = some (.wrcomp c f) ∧ f.wday = 0 ∧
      (∀ k cs, (.field k, cs) ∈ as → byteOperand cs = some (f.get k)) ∧
      (∀ cs, (.cent, cs) ∈ as → byteOperand cs = some c) ∧ (.cent ∉ as.map (·.1) → c = 21) := by
  refine ⟨(assigned .cent (valued as)).getD 21, fieldsOf (valued as), ?_, (fieldsOf_valued hn hv .wday).2 hw,
    fun k => (fieldsOf_valued hn hv k).1, fun cs hmem => ?_, fun hc => ?_⟩
  · rw [wrcomp_accepted hv]
    rw [← valued_names] at hn hw hk
    exact assembleWrcomp_complete hn ((assigned_eq_none_iff _ _).2 hw) hk
  · obtain ⟨b, hb⟩ := Option.isSome_iff_exists.1 (hv _ hmem)
    rw [assigned_valued hn hv hmem, hb, Option.getD_some]
  · rw [(assigned_eq_none_iff _ _).2 (by rwa [valued_names]), Option.getD_none]

/-! ## The order of the names -/

/-- What WRALL and WRCOMP make of a list depends on its names being different and on what it assigns. -/
theorem assemble_congr {as bs : List (OperandName × Byte)} (hn : (as.map (·.1)).Nodup ↔ (bs.map (·.1)).Nodup)
    (h : ∀ k, assigned k as = assigned k bs) :
    assembleWrall as = assembleWrall bs ∧ assembleWrcomp as = assembleWrcomp bs := by
  simp only [assembleWrall, assembleWrcomp, fieldOrZero, presentBit, hn, h, and_self]

/-- A list with a name twice gives neither. -/
theorem assemble_none {as : List (OperandName × Byte)} (hn : ¬ (as.map (·.1)).Nodup) :
    assembleWrall as = none ∧ assembleWrcomp as = none := by
  simp only [assembleWrall, assembleWrcomp, hn, false_and, if_false, and_self]

theorem assemble_perm {as bs : List (OperandName × Byte)} (hp : as.Perm bs) :
    assembleWrall as = assembleWrall bs ∧ assembleWrcomp as = assembleWrcomp bs := by
  have hiff : (as.map (·.1)).Nodup ↔ (bs.map (·.1)).Nodup := (hp.map (·.1)).nodup_iff
  by_cases hn : (as.map (·.1)).Nodup
  · exact assemble_congr hiff (assigned_perm hp hn)
  · obtain ⟨ha, ha'⟩ := assemble_none hn
    obtain ⟨hb, hb'⟩ := assemble_none (hiff.not.1 hn)
    exact ⟨ha.trans hb.symm, ha'.trans hb'.symm⟩

theorem lists_perm (hp : as.Perm bs) :
    assembleLexemes (.atom "WRALL".toList :: assignmentLexemes as) =
        assembleLexemes (.atom "WRALL".toList :: assignmentLexemes bs) ∧
      assembleLexemes (.atom "WRCOMP".toList :: assignmentLexemes as) =
        assembleLexemes (.atom "WRCOMP".toList :: assignmentLexemes bs) := by
  have hiff : (∀ p ∈ as, (byteOperand p.2).isSome = true) ↔ ∀ p ∈ bs, (byteOperand p.2).isSome = true := by
    simp only [hp.mem_iff]
  by_cases hv : ∀ p ∈ as, (byteOperand p.2).isSome = true
  · rw [wrall_accepted hv, wrall_accepted (hiff.1 hv), wrcomp_accepted hv, wrcomp_accepted (hiff.1 hv)]
    exact assemble_perm (hp.map _)
  · obtain ⟨ha, ha'⟩ := lists_refused_of_value hv
    obtain ⟨hb, hb'⟩ := lists_refused_of_value (hiff.not.1 hv)
    exact ⟨ha.trans hb.symm, ha'.trans hb'.symm⟩

/-! ## The two statements -/

/-- Settles O9: the written-out lines by running the assembler, the forms by their equations, the lists by what they
assign. -/
theorem assembledLinesAreLegalWords : Obligations.AssembledLinesAreLegalWords := by
  refine ⟨fun line w => word_of_assembleLine, by decide, by decide, fun cs b hb => ?_, fun cs ds a b ha hb => ?_,
    ⟨rfl, rfl, rfl⟩, fun as hn hc hv => wrall_of_names hn hc hv, fun as hn hw hk hv => wrcomp_of_names hn hw hk hv,
    fun as bs hp => lists_perm hp, fun b => ?_⟩
  · rw [assembleLexemes_bcddec, assembleLexemes_bcdenc, assembleLexemes_rdall, hb]
    exact ⟨rfl, rfl, rfl⟩
  · rw [assembleLexemes_setaddr, assembleLexemes_mrdb, assembleLexemes_mwrb, ha, hb]
    exact ⟨rfl, rfl, rfl⟩
  · rw [byteOperand_of_numberValue (numberValue_decimal b.toNat), if_pos (Nat.le_of_lt_succ b.isLt), BitVec.ofNat_toNat,
      BitVec.setWidth_eq]

/-- Settles O57: numbers by their digits, the forms and the lists by what accepting them takes, the minus sign by the
lexer. -/
theorem assemblerRefusesWhatDoesNotFit : Obligations.AssemblerRefusesWhatDoesNotFit := by
  refine ⟨fun n => ?_, fun cs hcs => ?_, fun cs hcs => ?_, fun as has => ?_, fun as hc => ?_, fun as has => ?_,
    fun cs ds h => assembleLine_minus h⟩
  · have hdec := numberValue_decimal n
    have hhex := numberValue_hexadecimal n
    exact ⟨byteOperand_of_numberValue hdec, byteOperand_of_numberValue hhex, addressOperand_of_numberValue hdec,
      addressOperand_of_numberValue hhex⟩
  · rw [assembleLexemes_bcddec, assembleLexemes_bcdenc, assembleLexemes_rdall, hcs]
    refine ⟨rfl, rfl, rfl, fun a => ?_⟩
    rw [assembleLexemes_mwrb, hcs]
    cases addressOperand a <;> rfl
  · simp only [assembleLexemes_setaddr, assembleLexemes_mrdb, assembleLexemes_mwrb, hcs, Option.map_none,
      Option.bind_none, implies_true, and_self]
  · have hnot : ¬ ((∀ p ∈ as, (byteOperand p.2).isSome = true) ∧ (as.map (·.1)).Nodup) := by
      rintro ⟨hv, hn⟩
      rcases has with ⟨p, hp, hnone⟩ | hdup
      · simpa [hnone] using hv p hp
      · exact hdup hn
    constructor
    · refine Option.eq_none_iff_forall_ne_some.2 fun i hi => ?_
      obtain ⟨hv, hn, -⟩ := names_of_wrall hi
      exact hnot ⟨hv, hn⟩
    · refine Option.eq_none_iff_forall_ne_some.2 fun i hi => ?_
      obtain ⟨hv, hn, -⟩ := names_of_wrcomp hi
      exact hnot ⟨hv, hn⟩
  · refine Option.eq_none_iff_forall_ne_some.2 fun i hi => ?_
    exact (names_of_wrall hi).2.2 hc
  · refine Option.eq_none_iff_forall_ne_some.2 fun i hi => ?_
    obtain ⟨-, -, hw, hk⟩ := names_of_wrcomp hi
    rcases has with hday | ⟨k, hkw, hmiss⟩
    · exact hw hday
    · exact hmiss (hk k hkw)

end Sys2Proof.Machine
end
